-- ==== Sys2Proof/Word.lean ====
section
/-! DEFINITION. The two value types of the spec (00_scope.md section 5): a word is an unsigned integer below
2^32, a byte one below 2^8. Nothing in TEA-CORE is signed. -/

namespace Sys2Proof

/-- A 32-bit word: register contents and command words. -/
abbrev Word := BitVec 32

/-- A byte of the message buffer. -/
abbrev Byte := BitVec 8

end Sys2Proof
end

