-- ==== Sys2Proof/Syntax.lean ====
section
/-! DEFINITION. The eight commands of 30_encoding.md R52, one constructor per row of spec/opcode_table.json.
The only operand a command word carries is the byte offset of BTW and WTB (R53), a number that is only ever
added to and compared, so it is a `Nat`; its 24-bit range is `Instr.wellFormed`. -/

namespace Sys2Proof

/-- A command of the engine (R52). -/
inductive Instr where
  /-- `BTW off`: bytes to words (R73). -/
  | btw (off : Nat)
  /-- `WTB off`: words to bytes (R74). -/
  | wtb (off : Nat)
  /-- `ENCB`: encrypt the block registers (R90). -/
  | encb
  /-- `DECB`: decrypt the block registers (R91). -/
  | decb
  /-- `PAD`: append PKCS#7 padding to the message (R104). -/
  | pad
  /-- `UNPAD`: check and remove PKCS#7 padding (R105). -/
  | unpad
  /-- `ENCM`: pad and encrypt the message (R111). -/
  | encm
  /-- `DECM`: decrypt and unpad the message (R112). -/
  | decm
  deriving DecidableEq, Repr

end Sys2Proof
end

