-- ==== Sys2Proof/WellFormed.lean ====
section
/-! DEFINITION. Which terms of `Instr` stand for a command word: the offset fits the 24-bit OFF field (R51, R53). -/

namespace Sys2Proof

/-- R53: `off` is an unsigned number in `0..2^24-1`; no other command has an operand. -/
def Instr.wellFormed : Instr → Bool
  | .btw off => decide (off < 2 ^ 24)
  | .wtb off => decide (off < 2 ^ 24)
  | .encb => true
  | .decb => true
  | .pad => true
  | .unpad => true
  | .encm => true
  | .decm => true

end Sys2Proof
end

