-- ==== Sys2Proof/Decode.lean ====
section
/-! DEFINITION. The command decoder of 30_encoding.md R54, total on every 32-bit word, and after it the
encoder, written from the opcode map R52 and the word forms of R58. -/

namespace Sys2Proof

/-- Why a command word is reserved: the three classes of R55. -/
inductive ReservedWord where
  /-- `OP = 0x00`, whatever OFF is. -/
  | opZero
  /-- `OP` in `0x09..0xFF`. -/
  | opUnassigned
  /-- `OP` in `0x03..0x08` and `OFF != 0`. -/
  | offNotZero
  deriving DecidableEq, Repr

/-- What a word decodes to (R54): one command, or the reserved verdict. -/
inductive Decoded where
  | command (i : Instr)
  | reserved (r : ReservedWord)
  deriving DecidableEq, Repr

/-- R51: OP is bits 7:0 of the command word. -/
def opField (w : Word) : Nat := (w.extractLsb' 0 8).toNat

/-- R51, R53: OFF is bits 31:8 of the command word, an unsigned byte offset. -/
def offField (w : Word) : Nat := (w.extractLsb' 8 24).toNat

/-- A command of form CN takes no operand: its word is reserved unless OFF is 0 (R51, R55). -/
def withoutOperand (off : Nat) (i : Instr) : Decoded :=
  if off = 0 then .command i else .reserved .offNotZero

/-- R54: the decoder. -/
def decode (w : Word) : Decoded :=
  match opField w with
  | 0x00 => .reserved .opZero
  | 0x01 => .command (.btw (offField w))
  | 0x02 => .command (.wtb (offField w))
  | 0x03 => withoutOperand (offField w) .encb
  | 0x04 => withoutOperand (offField w) .decb
  | 0x05 => withoutOperand (offField w) .pad
  | 0x06 => withoutOperand (offField w) .unpad
  | 0x07 => withoutOperand (offField w) .encm
  | 0x08 => withoutOperand (offField w) .decm
  | _ => .reserved .opUnassigned

/-- The OP value of a command (R52). -/
def opcodeOf : Instr → Nat
  | .btw _ => 0x01
  | .wtb _ => 0x02
  | .encb => 0x03
  | .decb => 0x04
  | .pad => 0x05
  | .unpad => 0x06
  | .encm => 0x07
  | .decm => 0x08

/-- The OFF value of a command (R51): the offset of BTW and WTB, 0 for every other command. -/
def offsetOf : Instr → Nat
  | .btw off => off
  | .wtb off => off
  | .encb => 0
  | .decb => 0
  | .pad => 0
  | .unpad => 0
  | .encm => 0
  | .decm => 0

/-- R52, R58: the command word, `off*256 + OP`. For an ill-formed term (an offset of 2^24 or more) that number is no
32-bit word and the spec names no word for it; that the sum is taken mod 2^32 there, so that `btw (2^24)` gets the word
of `btw 0`, is DESIGN CHOICE (log entry 10). -/
def encode (i : Instr) : Word := BitVec.ofNat 32 (offsetOf i * 256 + opcodeOf i)

/-- One row of the opcode map (R52): a word `w` is the command when `w AND mask = match`. -/
structure OpcodeRow where
  mnemonic : String
  pattern : Word
  mask : Word
  deriving DecidableEq, Repr

/-- The opcode map as R52 prints it. -/
def opcodeMap : List OpcodeRow :=
  [ ⟨"BTW", 0x00000001, 0x000000FF⟩,
    ⟨"WTB", 0x00000002, 0x000000FF⟩,
    ⟨"ENCB", 0x00000003, 0xFFFFFFFF⟩,
    ⟨"DECB", 0x00000004, 0xFFFFFFFF⟩,
    ⟨"PAD", 0x00000005, 0xFFFFFFFF⟩,
    ⟨"UNPAD", 0x00000006, 0xFFFFFFFF⟩,
    ⟨"ENCM", 0x00000007, 0xFFFFFFFF⟩,
    ⟨"DECM", 0x00000008, 0xFFFFFFFF⟩ ]

/-- A command's mnemonic (R52). -/
def mnemonicOf : Instr → String
  | .btw _ => "BTW"
  | .wtb _ => "WTB"
  | .encb => "ENCB"
  | .decb => "DECB"
  | .pad => "PAD"
  | .unpad => "UNPAD"
  | .encm => "ENCM"
  | .decm => "DECM"

/-- The instruction `decode` reads from the bits `w`, numbered as spec/opcode_table.json numbers them. A command
is one 32-bit word delivered by value (R45, R50): bits at `nbits` and above are 0, and a number that does not
fit 32 bits is no command word (log entry 14). -/
def decodeTableWord (nbits w : Nat) : Option Instr :=
  let bits := w % 2 ^ nbits
  if bits < 2 ^ 32 then
    match decode (BitVec.ofNat 32 bits) with
    | .command i => some i
    | .reserved _ => none
  else none

end Sys2Proof
end

