-- ==== Sys2Proof/Config.lean ====
section
/-! DEFINITION. What an implementation fixes (the capacity CAP, R5) and the values the spec leaves unspecified
after a reset event (R22, R23). -/

namespace Sys2Proof

/-- The one parameter of the model (R5): the capacity of BUF in bytes. -/
structure Config where
  cap : Nat
  deriving DecidableEq, Repr

/-- R5: `CAP mod 8 = 0` and `8 <= CAP <= 2^24`. -/
abbrev Config.WF (c : Config) : Prop :=
  c.cap % 8 = 0 ∧ 8 ≤ c.cap ∧ c.cap ≤ 2 ^ 24

/-- The capacity `State.reset` has. DESIGN CHOICE (log entry 3): the capacity of the spec's programs P1 to P3;
a statement about `State.reset` that rests on it is unsafe. -/
def Config.default : Config := { cap := 32 }

/-- What the engine held just before a reset event. The spec does not say whether the unspecified values after the
event may depend on it, so the free values below take it as an argument (log entry 6). -/
structure Held where
  /-- CAP. -/
  cap : Nat
  /-- K[0..3], V[0..1], LEN and STATUS, in the order of their register numbers. -/
  words : List Word
  /-- The listed bytes of BUF. -/
  bytes : List (Nat × Byte)
  deriving DecidableEq, Repr

/-- Free value (R22, R23, log entry 6): what register number `n` (0 to 5: K[0..3], V[0..1]) holds after reset
event number `e` of an engine that held `h` before it. It has no body, so no proof can know its value, nor whether it
is what was held before. -/
opaque Config.unspecifiedWord (h : Held) (e n : Nat) : Word

/-- Free value (R22, R23, log entry 6): what the buffer byte at offset `a` holds after reset event number `e` of an
engine that held `h` before it. -/
opaque Config.unspecifiedByte (h : Held) (e a : Nat) : Byte

end Sys2Proof
end

