-- ==== Sys2Proof/Machine/State.lean ====
section
/-! DEFINITION. The state of TEA-CORE (10_state.md R10), what the host can do to it (R31, R140), what a read
returns (R8), the outcomes of a command (R120), and the state after reset (R21, R141). -/

namespace Sys2Proof.Machine

/-- The nine register numbers of R10, by name; `Reg.ofNumber?` in Ops.lean gives the numbers. -/
inductive Reg where
  | k0 | k1 | k2 | k3
  | v0 | v1
  | len
  | cmd
  | status
  deriving DecidableEq, Repr

/-- The four host transactions (R31). Register numbers and offsets are plain numbers: a transaction outside the
map can be written down, and is refused (R36). -/
inductive Txn where
  | regWrite (n : Nat) (v : Word)
  | regRead (n : Nat)
  | bufWrite (a : Nat) (b : Byte)
  | bufRead (a : Nat)
  deriving DecidableEq, Repr

/-- What can happen to the engine from outside: a host transaction, or a reset between transactions (R140). -/
inductive Event where
  | txn (t : Txn)
  | reset
  deriving DecidableEq, Repr

/-- The value a read returns (R8, R31): a word from RegRead, a byte from BufRead. -/
inductive Response where
  | word (v : Word)
  | byte (b : Byte)
  deriving DecidableEq, Repr

/-- The five outcomes of a command (R120); `Code.toWord` in Flags.lean gives the codes of R121. -/
inductive Code where
  | ok
  | alignmentError
  | paddingError
  | capacityError
  | illegalCmd
  deriving DecidableEq, Repr

/-- The key registers K[0..3] (R11). -/
structure Key where
  k0 : Word
  k1 : Word
  k2 : Word
  k3 : Word
  deriving DecidableEq, Repr

/-- Why the machine stops with a fault: never. Every error of a command is an outcome in STATUS after which
the engine goes on (R127, R128), so this type has no constructor, and no step can fault. -/
inductive Fault where
  deriving DecidableEq, Repr

/-- Why a step is refused. -/
inductive Refusal where
  /-- Raised by an arm of `exec` whose instruction has no meaning yet. No arm raises it: every command is modelled. -/
  | notModelled (mnemonic : String)
  /-- Raised by RegWrite and RegRead with a register number above 8, which R36 refuses. Safe: a run stops where
  hardware would do something the spec does not name (log entry 7). -/
  | noSuchRegister (n : Nat)
  /-- Raised by BufWrite and BufRead with an offset at or above CAP, which R36 refuses. Safe, as above (log entry 7). -/
  | noSuchOffset (a : Nat)
  deriving DecidableEq, Repr

/-- The machine: the record of R10 (K, V, LEN, STATUS, BUF; CMD has no storage, R14), the parameter CAP (R5,
R8), and three fields of the model's own: what the host has still to issue, what its reads returned, and the
number of reset events, to which the free values of a reset event are applied. -/
structure State where
  /-- The parameter CAP (R5); no step changes it (log entry 3). -/
  cfg : Config
  /-- K[0..3] (R11). -/
  k : Key
  /-- V[0] (R12). -/
  v0 : Word
  /-- V[1] (R12). -/
  v1 : Word
  /-- LEN (R13). -/
  len : Word
  /-- STATUS (R16): CODE in bits 2:0, bits 31:3 zero. -/
  status : Word
  /-- BUF[0..CAP-1] (R17): the listed bytes in the canonical form `Memory.wf`; Ops.lean says what an unlisted
  offset reads as. -/
  buf : List Host.Cell
  /-- The model's own: reset events so far (log entry 6). -/
  resets : Nat
  /-- The model's own: what the outside will do, next first (R149, log entry 4). -/
  pending : List Event
  /-- The model's own: the values the reads returned, oldest first (R149, log entry 5). -/
  reads : List Response
  deriving DecidableEq, Repr

/-- The state after reset (R21, R141): LEN and STATUS are 0. K, V and BUF are unspecified there (R22); the
zeros here are DESIGN CHOICE (log entries 1 and 2), and so are the capacity (log entry 3), the empty list of
pending events (log entry 4), the empty list of read values (log entry 5) and the count of resets (log entry 6). -/
def State.reset : State where
  cfg := Config.default
  k := ⟨0, 0, 0, 0⟩
  v0 := 0
  v1 := 0
  len := 0
  status := 0
  buf := []
  resets := 0
  pending := []
  reads := []

end Sys2Proof.Machine
end

