-- ==== Sys2Proof/Machine/Flags.lean ====
section
/-! DEFINITION. The engine's only flag-like state is STATUS (10_state.md R16): the codes of the five outcomes
(R121) and the CODE field. There are no carry, zero, overflow or condition flags. -/

namespace Sys2Proof.Machine

/-- R121: the number written to STATUS for an outcome; bits 31:3 are 0 (R16). -/
def Code.toWord : Code → Word
  | .ok => 0
  | .alignmentError => 1
  | .paddingError => 2
  | .capacityError => 3
  | .illegalCmd => 4

/-- R16: the CODE field, STATUS[2:0]. -/
def codeField (status : Word) : Nat := (status.extractLsb' 0 3).toNat

/-- The outcome a STATUS value reports; a value no command produces (R16: codes 5 to 7, or bits 31:3 not zero)
reports none. -/
def Code.ofWord? (status : Word) : Option Code :=
  if status = Code.toWord .ok then some .ok
  else if status = Code.toWord .alignmentError then some .alignmentError
  else if status = Code.toWord .paddingError then some .paddingError
  else if status = Code.toWord .capacityError then some .capacityError
  else if status = Code.toWord .illegalCmd then some .illegalCmd
  else none

end Sys2Proof.Machine
end

