-- ==== Sys2Proof/Machine/Ops.lean ====
section
/-! DEFINITION. The named operations over the buffer and the registers: the byte store BUF, MemRead and MemWrite
(00_scope.md section 5), the register map (R10, R32, R33), `raise` and `done` (00_scope.md section 5, R121, R127),
and the reset event (R140, R141). -/

namespace Sys2Proof.Machine

/-- What a buffer byte nothing has written reads as. R22 leaves it unspecified; DESIGN CHOICE (log entry 2). -/
def unlistedByte : Byte := 0

/-- The canonical form of a byte store: offsets strictly rising, and no entry equal to what an unlisted offset
reads as. Equal contents are then equal lists. -/
abbrev Memory.wf (m : List Host.Cell) : Prop :=
  m.Pairwise (fun c d => c.1 < d.1) ∧ ∀ c ∈ m, c.2 ≠ unlistedByte

/-- Every listed offset lies below `cap` (R17: offsets `0..CAP-1`). -/
abbrev Memory.below (cap : Nat) (m : List Host.Cell) : Prop :=
  ∀ c ∈ m, c.1 < cap

/-- The byte at offset `a`. -/
def Memory.read : List Host.Cell → Nat → Byte
  | [], _ => unlistedByte
  | (x, c) :: m, a => if x = a then c else Memory.read m a

/-- Lists the byte `b` at offset `a` in front of `m`, unless an unlisted offset reads as `b` anyway. -/
def Memory.cons (a : Nat) (b : Byte) (m : List Host.Cell) : List Host.Cell :=
  if b = unlistedByte then m else (a, b) :: m

/-- `BUF[a] <- b`, keeping the canonical form. -/
def Memory.write : List Host.Cell → Nat → Byte → List Host.Cell
  | [], a, b => Memory.cons a b []
  | (x, c) :: m, a, b =>
    if a < x then Memory.cons a b ((x, c) :: m)
    else if a = x then Memory.cons a b m
    else (x, c) :: Memory.write m a b

/-- `MemRead(a, n)`: the list `BUF[a..a+n)`, lowest offset first. -/
def memRead (m : List Host.Cell) (a : Nat) : Nat → List Byte
  | 0 => []
  | n + 1 => Memory.read m a :: memRead m (a + 1) n

/-- `MemWrite(a, n, bs)` for the `n` bytes `bs`: `BUF[a+i] <- bs[i]`. -/
def memWrite (m : List Host.Cell) (a : Nat) : List Byte → List Host.Cell
  | [] => m
  | b :: bs => memWrite (Memory.write m a b) (a + 1) bs

/-- The byte store whose `n` bytes from offset `a` on are `f a, f (a+1), ...`, in canonical form. -/
def Memory.fill (f : Nat → Byte) (a : Nat) : Nat → List Host.Cell
  | 0 => []
  | n + 1 => Memory.cons a (f a) (Memory.fill f (a + 1) n)

/-- R10: the register numbers; none above 8 (R36). -/
def Reg.ofNumber? : Nat → Option Reg
  | 0 => some .k0
  | 1 => some .k1
  | 2 => some .k2
  | 3 => some .k3
  | 4 => some .v0
  | 5 => some .v1
  | 6 => some .len
  | 7 => some .cmd
  | 8 => some .status
  | _ => none

/-- R10: the number of a register. -/
def Reg.number : Reg → Nat
  | .k0 => 0
  | .k1 => 1
  | .k2 => 2
  | .k3 => 3
  | .v0 => 4
  | .v1 => 5
  | .len => 6
  | .cmd => 7
  | .status => 8

/-- R33: the value RegRead returns. CMD has no storage and reads as 0 (R14). -/
def readReg (s : State) : Reg → Word
  | .k0 => s.k.k0
  | .k1 => s.k.k1
  | .k2 => s.k.k2
  | .k3 => s.k.k3
  | .v0 => s.v0
  | .v1 => s.v1
  | .len => s.len
  | .cmd => 0
  | .status => s.status

/-- R32: what a register keeps of a write. CMD has no storage (R14) and a write to STATUS is ignored (R16); that
a write to CMD runs a command is `hostRegWrite` in Transact.lean. -/
def writeReg (s : State) (v : Word) : Reg → State
  | .k0 => { s with k := { s.k with k0 := v } }
  | .k1 => { s with k := { s.k with k1 := v } }
  | .k2 => { s with k := { s.k with k2 := v } }
  | .k3 => { s with k := { s.k with k3 := v } }
  | .v0 => { s with v0 := v }
  | .v1 => { s with v1 := v }
  | .len => { s with len := v }
  | .cmd => s
  | .status => s

/-- `V[0] <- w.1` and `V[1] <- w.2` (R12). -/
def setBlock (w : Word × Word) (s : State) : State := { s with v0 := w.1, v1 := w.2 }

/-- `LEN <- n` for a length `n` (R13). -/
def setLen (n : Nat) (s : State) : State := { s with len := BitVec.ofNat 32 n }

/-- The buffer holds `m`. -/
def setBuf (m : List Host.Cell) (s : State) : State := { s with buf := m }

/-- A read returned `r` to the host. -/
def logRead (r : Response) (s : State) : State := { s with reads := s.reads ++ [r] }

/-- `raise E` (00_scope.md section 5): `STATUS <- code(E)` and the command ends; no other state changes. This is
all an error does: nothing is saved, no mode changes, control goes nowhere (R127), and there is no return from
it, the next command simply runs (R128). -/
def raise (e : Code) (s : State) : State := { s with status := e.toWord }

/-- `done` (00_scope.md section 5): `STATUS <- 0` and the command ends. -/
def done (s : State) : State := { s with status := Code.toWord .ok }

/-- What the engine holds, as the free values of a reset event take it (log entry 6). -/
def held (s : State) : Held where
  cap := s.cfg.cap
  words := [s.k.k0, s.k.k1, s.k.k2, s.k.k3, s.v0, s.v1, s.len, s.status]
  bytes := s.buf

/-- The reset event (R140, R141): LEN and STATUS become 0; K, V and every byte of BUF become unspecified, which
are free values (R22, R23, log entry 6), fixed at this reset and stable until written. Whether they depend on what
the engine held before, the spec leaves open; DESIGN CHOICE (log entry 6): they are functions, with no body, of all it
held and of the number of this reset, so the model proves neither that a value survives nor that it is lost. What
the host has still to issue, and what its reads returned, are not the engine's and stay. -/
def resetEngine (s : State) : State :=
  { s with
    k := ⟨Config.unspecifiedWord (held s) s.resets 0, Config.unspecifiedWord (held s) s.resets 1,
          Config.unspecifiedWord (held s) s.resets 2, Config.unspecifiedWord (held s) s.resets 3⟩
    v0 := Config.unspecifiedWord (held s) s.resets 4
    v1 := Config.unspecifiedWord (held s) s.resets 5
    len := 0
    status := 0
    buf := Memory.fill (Config.unspecifiedByte (held s) s.resets) 0 s.cfg.cap
    resets := s.resets + 1 }

end Sys2Proof.Machine
end

