-- ==== Sys2Proof/Machine/Operands.lean ====
section
/-! DEFINITION. The operand forms (30_encoding.md R51, R53): form CO carries an absolute byte offset into BUF;
every other operand is implicit: the block V, the key K, the message BUF[0..LEN). -/

namespace Sys2Proof.Machine

/-- R4: the block size in bytes. -/
abbrev blockSize : Nat := 8

/-- The offset operand of BTW and WTB fits when the 8 bytes it names exist: `off + 8 <= CAP`, the bound being
the capacity and not LEN, the sum not wrapping, and no alignment asked for (R38, R73). -/
abbrev offsetFits (s : State) (off : Nat) : Prop := off + blockSize ≤ s.cfg.cap

/-- The implicit block operand (R12): V[0] and V[1]. -/
abbrev blockOperand (s : State) : Word × Word := (s.v0, s.v1)

/-- The implicit key operand (R11): K[0..3]. -/
abbrev keyOperand (s : State) : Key := s.k

/-- The length operand (R13): LEN as a number of bytes. -/
abbrev lenOperand (s : State) : Nat := s.len.toNat

/-- LEN names a message: `LEN <= CAP` (R13). -/
abbrev lenFits (s : State) : Prop := lenOperand s ≤ s.cfg.cap

/-- The implicit message operand (R13): the bytes `BUF[0..LEN)`. -/
abbrev messageOperand (s : State) : List Byte := memRead s.buf 0 (lenOperand s)

end Sys2Proof.Machine
end

