-- ==== Sys2Proof/Machine/Codec.lean ====
section
/-! DEFINITION. The word codec (40_word_codec.md): B2W and W2B (R70, R71), big-endian, and the commands BTW and
WTB (R73, R74). -/

namespace Sys2Proof.Machine

/-- Exactly 8 bytes, lowest offset first: the argument of B2W and the result of W2B (R70, R71). -/
structure Chunk where
  b0 : Byte
  b1 : Byte
  b2 : Byte
  b3 : Byte
  b4 : Byte
  b5 : Byte
  b6 : Byte
  b7 : Byte
  deriving DecidableEq, Repr

/-- The 8 bytes as a list, lowest offset first. -/
def Chunk.toList (c : Chunk) : List Byte := [c.b0, c.b1, c.b2, c.b3, c.b4, c.b5, c.b6, c.b7]

/-- `MemRead(a, 8)` as the 8 bytes it is. -/
def readChunk (m : List Host.Cell) (a : Nat) : Chunk :=
  { b0 := Memory.read m a
    b1 := Memory.read m (a + 1)
    b2 := Memory.read m (a + 2)
    b3 := Memory.read m (a + 3)
    b4 := Memory.read m (a + 4)
    b5 := Memory.read m (a + 5)
    b6 := Memory.read m (a + 6)
    b7 := Memory.read m (a + 7) }

/-- `MemWrite(a, 8, c)`. -/
def writeChunk (m : List Host.Cell) (a : Nat) (c : Chunk) : List Host.Cell := memWrite m a c.toList

/-- `b0 || b1 || b2 || b3`: the first byte is the most significant (00_scope.md section 5). -/
def joinBytes (b0 b1 b2 b3 : Byte) : Word := b0 ++ b1 ++ b2 ++ b3

/-- R70: 8 bytes to two words, big-endian. -/
def b2w (c : Chunk) : Word × Word :=
  (joinBytes c.b0 c.b1 c.b2 c.b3, joinBytes c.b4 c.b5 c.b6 c.b7)

/-- R71: two words to 8 bytes, the exact inverse. -/
def w2b (w : Word × Word) : Chunk :=
  { b0 := w.1.extractLsb' 24 8
    b1 := w.1.extractLsb' 16 8
    b2 := w.1.extractLsb' 8 8
    b3 := w.1.extractLsb' 0 8
    b4 := w.2.extractLsb' 24 8
    b5 := w.2.extractLsb' 16 8
    b6 := w.2.extractLsb' 8 8
    b7 := w.2.extractLsb' 0 8 }

/-- `BTW off` (R73): loads V from 8 buffer bytes, or raises CAPACITY_ERROR with V unchanged. -/
def execBtw (off : Nat) (s : State) : Host.Outcome State Fault Refusal :=
  if offsetFits s off then
    .next (done (setBlock (b2w (readChunk s.buf off)) s))
  else
    .next (raise .capacityError s)

/-- `WTB off` (R74): stores V to 8 buffer bytes, or raises CAPACITY_ERROR with BUF unchanged. -/
def execWtb (off : Nat) (s : State) : Host.Outcome State Fault Refusal :=
  if offsetFits s off then
    .next (done (setBuf (writeChunk s.buf off (w2b (blockOperand s))) s))
  else
    .next (raise .capacityError s)

end Sys2Proof.Machine
end

