-- ==== Sys2Proof/Machine/Padding.lean ====
section
/-! DEFINITION. The PKCS#7 padding engine, block size 8 (42_padding.md): PadLen, Pad and UnpadCheck (R100, R101,
R103) and the commands PAD and UNPAD (R104, R105). -/

namespace Sys2Proof.Machine

/-- R100: the number of padding bytes for a message of `n` bytes. -/
def padLen (n : Nat) : Nat :=
  let r := n % blockSize
  if r = 0 then blockSize else blockSize - r

/-- The padding itself: `rep(p, p)`, `p` bytes of value `p` (R101). -/
def padBytes (p : Nat) : List Byte := List.replicate p (BitVec.ofNat 8 p)

/-- R101: `Pad(m)`; padding is always added (R102). -/
def pad (m : List Byte) : List Byte := m ++ padBytes (padLen m.length)

/-- The result of UnpadCheck (R103). -/
inductive PadVerdict where
  | valid (p : Nat)
  | invalid
  deriving DecidableEq, Repr

/-- R103: the check of a padded message. The four ways to be invalid stand in the rule's order: (a) no last
byte, (b) zero or oversized, (c) fewer than `p` bytes, (d) inconsistent. -/
def unpadCheck (bs : List Byte) : PadVerdict :=
  match bs.getLast? with
  | none => .invalid
  | some last =>
    let p := last.toNat
    if p = 0 ∨ blockSize < p then .invalid
    else if bs.length < p then .invalid
    else if (bs.drop (bs.length - p)).all (fun b => b == last) then .valid p
    else .invalid

/-- `PAD` (R104): both capacity checks come before the first write. -/
def execPad (s : State) : Host.Outcome State Fault Refusal :=
  let n := lenOperand s
  let p := padLen n
  if s.cfg.cap < n then .next (raise .capacityError s)
  else if s.cfg.cap < n + p then .next (raise .capacityError s)
  else .next (done (setLen (n + p) (setBuf (memWrite s.buf n (padBytes p)) s)))

/-- `UNPAD` (R105): BUF is never written; on success LEN alone goes down. -/
def execUnpad (s : State) : Host.Outcome State Fault Refusal :=
  let n := lenOperand s
  if s.cfg.cap < n then .next (raise .capacityError s)
  else
    match unpadCheck (messageOperand s) with
    | .invalid => .next (raise .paddingError s)
    | .valid p => .next (done (setLen (n - p) s))

end Sys2Proof.Machine
end

