-- ==== Sys2Proof/Machine/Arith.lean ====
section
/-! DEFINITION. The word arithmetic of the cipher (41_tea_core.md R81): unsigned, wrapping, no flags. -/

namespace Sys2Proof.Machine

/-- R81: `(a + b) mod 2^32`. -/
def add32 (a b : Word) : Word := a + b

/-- R81: `(a - b) mod 2^32`. -/
def sub32 (a b : Word) : Word := a - b

/-- R81: `(a * 2^n) mod 2^32`; bits shifted past bit 31 are lost. -/
def shl32 (a : Word) (n : Nat) : Word := a <<< n

/-- R81: `floor(a / 2^n)`, the logical shift; zeros enter at bit 31. -/
def shr32 (a : Word) (n : Nat) : Word := a >>> n

/-- R81: bitwise exclusive or. -/
def xor32 (a b : Word) : Word := a ^^^ b

end Sys2Proof.Machine
end

