-- ==== Sys2Proof/Machine/Tea.lean ====
section
/-! DEFINITION. The TEA cipher (41_tea_core.md): the mixing function, the rounds, block encryption and
decryption (R80 to R87), and the commands ENCB and DECB (R90, R91). -/

namespace Sys2Proof.Machine

/-- R80. -/
def delta : Word := 0x9E3779B9

/-- R80: passes of the loop body. -/
def rounds : Nat := 32

/-- R80, R87: `DELTA * ROUNDS mod 2^32`, the first `sum` of decryption. -/
def decryptStart : Word := 0xC6EF3720

/-- R82: `F(x, s, ka, kb)`. -/
def mix (x s ka kb : Word) : Word :=
  xor32 (xor32 (add32 (shl32 x 4) ka) (add32 x s)) (add32 (shr32 x 5) kb)

/-- R84: one encryption round with the round's `sum` value `s`; the second update reads the new `v0`. -/
def encRound (v : Word × Word) (s : Word) (k : Key) : Word × Word :=
  let v0 := add32 v.1 (mix v.2 s k.k0 k.k1)
  let v1 := add32 v.2 (mix v0 s k.k2 k.k3)
  (v0, v1)

/-- R85: undoes `encRound` with the same `s`: the `v1` update first, then the `v0` update. -/
def decRound (v : Word × Word) (s : Word) (k : Key) : Word × Word :=
  let v1 := sub32 v.2 (mix v.1 s k.k2 k.k3)
  let v0 := sub32 v.1 (mix v1 s k.k0 k.k1)
  (v0, v1)

/-- `n` passes of the encryption loop (R86): `sum` is increased before it is used. -/
def encRounds (k : Key) : Nat → Word → Word × Word → Word × Word
  | 0, _, v => v
  | n + 1, sum, v => encRounds k n (add32 sum delta) (encRound v (add32 sum delta) k)

/-- `n` passes of the decryption loop (R87): `sum` is decreased after it is used. -/
def decRounds (k : Key) : Nat → Word → Word × Word → Word × Word
  | 0, _, v => v
  | n + 1, sum, v => decRounds k n (sub32 sum delta) (decRound v sum k)

/-- R86. -/
def teaEncrypt (k : Key) (v : Word × Word) : Word × Word := encRounds k rounds 0 v

/-- R87. -/
def teaDecrypt (k : Key) (v : Word × Word) : Word × Word := decRounds k rounds decryptStart v

/-- `ENCB` (R90): always OK. -/
def execEncb (s : State) : Host.Outcome State Fault Refusal :=
  .next (done (setBlock (teaEncrypt (keyOperand s) (blockOperand s)) s))

/-- `DECB` (R91): always OK. -/
def execDecb (s : State) : Host.Outcome State Fault Refusal :=
  .next (done (setBlock (teaDecrypt (keyOperand s) (blockOperand s)) s))

end Sys2Proof.Machine
end

