-- ==== Sys2Proof/Machine/Pipeline.lean ====
section
/-! DEFINITION. The ECB message pipeline (43_pipeline.md): the block loops (R110) and the commands ENCM and DECM
(R111, R112). Neither reads or writes V (R110). -/

namespace Sys2Proof.Machine

/-- One pass of a block loop (R110): the 8 bytes at offset `a` go through `f` as two words and back. -/
def transformBlock (f : Word × Word → Word × Word) (m : List Host.Cell) (a : Nat) : List Host.Cell :=
  writeChunk m a (w2b (f (b2w (readChunk m a))))

/-- The block loop (R110): `count` blocks in ascending order from block `j` on (R47: the order cannot be observed). -/
def transformBlocks (f : Word × Word → Word × Word) : Nat → Nat → List Host.Cell → List Host.Cell
  | 0, _, m => m
  | count + 1, j, m => transformBlocks f count (j + 1) (transformBlock f m (blockSize * j))

/-- R110: EncryptBlocks(n). -/
def encryptBlocks (k : Key) (n : Nat) (m : List Host.Cell) : List Host.Cell :=
  transformBlocks (teaEncrypt k) (n / blockSize) 0 m

/-- R110: DecryptBlocks(n). -/
def decryptBlocks (k : Key) (n : Nat) (m : List Host.Cell) : List Host.Cell :=
  transformBlocks (teaDecrypt k) (n / blockSize) 0 m

/-- `ENCM` (R111): pads the message, then encrypts every block of the result in place. -/
def execEncm (s : State) : Host.Outcome State Fault Refusal :=
  let n := lenOperand s
  let p := padLen n
  if s.cfg.cap < n then .next (raise .capacityError s)
  else if s.cfg.cap < n + p then .next (raise .capacityError s)
  else
    let padded := memWrite s.buf n (padBytes p)
    .next (done (setLen (n + p) (setBuf (encryptBlocks (keyOperand s) (n + p) padded) s)))

/-- `DECM` (R112): capacity, then alignment, both before any decryption; then every block is decrypted in place
and the padding of the decrypted bytes is checked. On PADDING_ERROR the decrypted bytes stay in BUF and LEN
stays `n`: the one error that changes more than STATUS. -/
def execDecm (s : State) : Host.Outcome State Fault Refusal :=
  let n := lenOperand s
  if s.cfg.cap < n then .next (raise .capacityError s)
  else if n % blockSize ≠ 0 then .next (raise .alignmentError s)
  else
    let plain := decryptBlocks (keyOperand s) n s.buf
    match unpadCheck (memRead plain 0 n) with
    | .invalid => .next (raise .paddingError (setBuf plain s))
    | .valid p => .next (done (setLen (n - p) (setBuf plain s)))

end Sys2Proof.Machine
end

