-- ==== Sys2Proof/Machine/Dispatch.lean ====
section
/-! DEFINITION. What each command does (30_encoding.md R52): one arm per constructor of `Instr`. -/

namespace Sys2Proof.Machine

/-- Runs one command to its end (R32). -/
def exec (i : Instr) (s : State) : Host.Outcome State Fault Refusal :=
  match i with
  | .btw off => Sys2Proof.Machine.execBtw off s
  | .wtb off => Sys2Proof.Machine.execWtb off s
  | .encb => Sys2Proof.Machine.execEncb s
  | .decb => Sys2Proof.Machine.execDecb s
  | .pad => Sys2Proof.Machine.execPad s
  | .unpad => Sys2Proof.Machine.execUnpad s
  | .encm => Sys2Proof.Machine.execEncm s
  | .decm => Sys2Proof.Machine.execDecm s

end Sys2Proof.Machine
end

