-- ==== Sys2Proof/Machine/Transact.lean ====
section
/-! DEFINITION. The four host transactions (20_memory.md R31 to R36) and the reset event (R140). A transaction
outside the map is refused (R36). -/

namespace Sys2Proof.Machine

/-- A write of the word `w` to CMD (R32): the command it decodes to runs to its end; a reserved word runs as a
command that does nothing but raise ILLEGAL_CMD, decided from the word alone (R55, R125). -/
def runCommandWord (w : Word) (s : State) : Host.Outcome State Fault Refusal :=
  match decode w with
  | .command i => exec i s
  | .reserved _ => .next (raise .illegalCmd s)

/-- RegWrite(n, v) (R32). -/
def hostRegWrite (n : Nat) (v : Word) (s : State) : Host.Outcome State Fault Refusal :=
  match Reg.ofNumber? n with
  | none => .refused (.noSuchRegister n)
  | some .cmd => runCommandWord v s
  | some r => .next (writeReg s v r)

/-- RegRead(n) (R33): returns the register's value and changes nothing in the engine. -/
def hostRegRead (n : Nat) (s : State) : Host.Outcome State Fault Refusal :=
  match Reg.ofNumber? n with
  | none => .refused (.noSuchRegister n)
  | some r => .next (logRead (.word (readReg s r)) s)

/-- BufWrite(a, b) (R34): `BUF[a] <- b` and nothing else. -/
def hostBufWrite (a : Nat) (b : Byte) (s : State) : Host.Outcome State Fault Refusal :=
  if a < s.cfg.cap then .next (setBuf (Memory.write s.buf a b) s)
  else .refused (.noSuchOffset a)

/-- BufRead(a) (R35): returns `BUF[a]` and changes nothing in the engine. -/
def hostBufRead (a : Nat) (s : State) : Host.Outcome State Fault Refusal :=
  if a < s.cfg.cap then .next (logRead (.byte (Memory.read s.buf a)) s)
  else .refused (.noSuchOffset a)

/-- One transaction of the host, complete before the next begins (R39, R42). -/
def transact (t : Txn) (s : State) : Host.Outcome State Fault Refusal :=
  match t with
  | .regWrite n v => hostRegWrite n v s
  | .regRead n => hostRegRead n s
  | .bufWrite a b => hostBufWrite a b s
  | .bufRead a => hostBufRead a s

/-- One event from outside: a transaction, or a reset between transactions (R140). -/
def perform (e : Event) (s : State) : Host.Outcome State Fault Refusal :=
  match e with
  | .txn t => transact t s
  | .reset => .next (resetEngine s)

/-- The "legal when" column of R31. -/
def Txn.legal (cap : Nat) : Txn → Bool
  | .regWrite n _ => decide (n ≤ 8)
  | .regRead n => decide (n ≤ 8)
  | .bufWrite a _ => decide (a < cap)
  | .bufRead a => decide (a < cap)

/-- The next event the outside brings is issued and leaves the list of pending events; with nothing pending
nothing happens (R8, R149, log entry 4). -/
def issueNext (s : State) : Host.Outcome State Fault Refusal :=
  match s.pending with
  | [] => .next s
  | e :: rest => perform e { s with pending := rest }

/-- The events that make the engine run the command word whose bits are `w`: one RegWrite to CMD (R50). The bits
at `nbits` and above are 0. -/
def commandEvent (nbits w : Nat) : Event := .txn (.regWrite 7 (BitVec.ofNat 32 (w % 2 ^ nbits)))

end Sys2Proof.Machine
end

