-- ==== Sys2Proof/Machine/Step.lean ====
section
/-! DEFINITION. One step of the machine: the next event the outside brings (00_scope.md R8, R149). -/

namespace Sys2Proof.Machine

/-- R8: one host transaction (or reset event) is issued; with nothing pending nothing happens. -/
def step (s : State) : Host.Outcome State Fault Refusal := issueNext s

/-- `s` with the command word whose bits are `w` the next thing the host writes to CMD. The engine fetches nothing
(R15, R45): a command comes by value in a RegWrite, so this stands for the host's bringing it (log entry 4). -/
def State.withFetchWord (s : State) (nbits w : Nat) : State :=
  { s with pending := commandEvent nbits w :: s.pending }

end Sys2Proof.Machine
end

