-- ==== Sys2Proof/Machine/Script.lean ====
section
/-! DEFINITION. Host scripts (30_encoding.md R58) and the three pseudo-operations (R59), as data: each line
expands to the transactions the rules give, and to nothing else. -/

namespace Sys2Proof.Machine

/-- A line of a host script (R58, R59). -/
inductive Line where
  /-- `wr <reg>, <imm32>` -/
  | wr (r : Reg) (v : Word)
  /-- `rd <reg>` -/
  | rd (r : Reg)
  /-- `bw <a>, <imm8>` -/
  | bw (a : Nat) (b : Byte)
  /-- `br <a>` -/
  | br (a : Nat)
  /-- A command's mnemonic and operand, such as `BTW <off>` or `ENCB`. -/
  | cmd (i : Instr)
  /-- `ldkey a, b, c, d` -/
  | ldkey (a b c d : Word)
  /-- `ldbuf a, b0 b1 ... b(n-1)` -/
  | ldbuf (a : Nat) (bs : List Byte)
  /-- `ldmsg b0 b1 ... b(n-1)` -/
  | ldmsg (bs : List Byte)
  deriving DecidableEq, Repr

/-- R59: a quoted string in place of a byte list stands for its ASCII codes, one byte per character. The argument is
the characters between the quotes (the spec marks this point as general knowledge; log entry 15). -/
def asciiBytes (cs : List Char) : List Byte := cs.map fun c => BitVec.ofNat 8 c.toNat

/-- R59: `bw a, b0 ; bw a+1, b1 ; ...`. -/
def expandLdbuf (a : Nat) : List Byte → List Txn
  | [] => []
  | b :: bs => .bufWrite a b :: expandLdbuf (a + 1) bs

/-- R58, R59: the transactions a line stands for. For two kinds of line the spec names no transaction, because a
number does not fit 32 bits, and taking it mod 2^32 is DESIGN CHOICE (log entry 15): `BTW off` and `WTB off` with an
offset of 2^24 or more (`encode`, log entry 10), and `ldmsg` with 2^32 or more bytes. -/
def expandLine : Line → List Txn
  | .wr r v => [.regWrite r.number v]
  | .rd r => [.regRead r.number]
  | .bw a b => [.bufWrite a b]
  | .br a => [.bufRead a]
  | .cmd i => [.regWrite 7 (encode i)]
  | .ldkey a b c d => [.regWrite 0 a, .regWrite 1 b, .regWrite 2 c, .regWrite 3 d]
  | .ldbuf a bs => expandLdbuf a bs
  | .ldmsg bs => expandLdbuf 0 bs ++ [.regWrite 6 (BitVec.ofNat 32 bs.length)]

/-- R58: a script is run top to bottom. -/
def expandScript (ls : List Line) : List Txn := ls.flatMap expandLine

/-- The host will run the script next, before whatever was pending. -/
def loadScript (ls : List Line) (s : State) : State :=
  { s with pending := (expandScript ls).map Event.txn ++ s.pending }

end Sys2Proof.Machine
end

