-- ==== Sys2Proof/Safety.lean ====
section
/-! DEFINITION. The invariant of the machine, and the other terms the statements use. -/

namespace Sys2Proof.Machine

/-- STATUS holds one of the five codes of R121; so bits 31:3 are 0 and codes 5 to 7 never occur (R16). -/
abbrev StatusWF (status : Word) : Prop := status.toNat ≤ 4

/-- A byte store is in canonical form and holds nothing at or above the capacity (R17). -/
abbrev BufWF (cap : Nat) (m : List Host.Cell) : Prop := Memory.wf m ∧ Memory.below cap m

/-- What every run keeps: CAP is admitted (R5), BUF is a canonical store of CAP bytes (R17), STATUS is a code (R16). -/
structure State.Inv (s : State) : Prop where
  cfg : s.cfg.WF
  buf : BufWF s.cfg.cap s.buf
  status : StatusWF s.status

/-- The offset `a` lies outside the `n` bytes from `base` on. -/
abbrev Outside (base n a : Nat) : Prop := a < base ∨ base + n ≤ a

/-- Commands issued one after the other (R42), stopping where one stops. -/
def runCommands : List Instr → State → Host.Outcome State Fault Refusal
  | [], s => .next s
  | i :: is, s =>
    match exec i s with
    | .next t => runCommands is t
    | .fault r => .fault r
    | .refused r => .refused r

/-- The command sequence R111 says ENCM equals, for a message of `n` bytes: `PAD`, then `BTW 8j`, `ENCB`, `WTB 8j`
for each block `j` of the padded message in ascending order. -/
def encryptByHand (n : Nat) : List Instr :=
  .pad :: (List.range ((n + padLen n) / 8)).flatMap fun j => [.btw (8 * j), .encb, .wtb (8 * j)]

end Sys2Proof.Machine
end

