-- ==== Sys2Proof/Certificates/Slice0/Obligations.lean ====
section
/-! DEFINITION. The statements for the provers, from the numbered rules of spec/. A statement about a store assumes
`State.Inv` (or the canonical form of BUF), which `ResetMeetsTheInvariant` and `EveryStepKeepsTheInvariant` say
every run has. No statement rests on a value the log marks DESIGN CHOICE unless its docstring says so. -/

open Sys2Proof Sys2Proof.Machine

/-! ## Encoding -/

/-- 30_encoding.md sections 2 and 4: no bit of an encoding is dropped. -/
def Obligations.DecodeOfEncodeIsTheCommand : Prop :=
  ∀ i : Instr, i.wellFormed = true → decode (encode i) = .command i

/-- 30_encoding.md sections 2 and 4: each command has one word only, and a word decodes to well-formed commands only. -/
def Obligations.EncodeOfDecodeIsTheWord : Prop :=
  ∀ (w : Word) (i : Instr), decode w = .command i → encode i = w ∧ i.wellFormed = true

/-- R54, with OP and OFF as numbers: OP is the word mod 256, OFF the word divided by 256. -/
def Obligations.DecodeFollowsTheDecodingRule : Prop :=
  ∀ w : Word,
    let op := w.toNat % 256
    let off := w.toNat / 256
    if op = 0x01 then decode w = .command (.btw off)
    else if op = 0x02 then decode w = .command (.wtb off)
    else if 0x03 ≤ op ∧ op ≤ 0x08 ∧ off = 0 then
      (op = 3 → decode w = .command .encb) ∧ (op = 4 → decode w = .command .decb) ∧
      (op = 5 → decode w = .command .pad) ∧ (op = 6 → decode w = .command .unpad) ∧
      (op = 7 → decode w = .command .encm) ∧ (op = 8 → decode w = .command .decm)
    else ∃ r, decode w = .reserved r

/-- R52: the `match` and `mask` column of each row picks out exactly that row's command words. -/
def Obligations.OpcodeMapMatchesDecode : Prop :=
  ∀ w : Word,
    (w &&& 0x000000FF = 0x00000001 ↔ ∃ off, decode w = .command (.btw off)) ∧
    (w &&& 0x000000FF = 0x00000002 ↔ ∃ off, decode w = .command (.wtb off)) ∧
    (w &&& 0xFFFFFFFF = 0x00000003 ↔ decode w = .command .encb) ∧
    (w &&& 0xFFFFFFFF = 0x00000004 ↔ decode w = .command .decb) ∧
    (w &&& 0xFFFFFFFF = 0x00000005 ↔ decode w = .command .pad) ∧
    (w &&& 0xFFFFFFFF = 0x00000006 ↔ decode w = .command .unpad) ∧
    (w &&& 0xFFFFFFFF = 0x00000007 ↔ decode w = .command .encm) ∧
    (w &&& 0xFFFFFFFF = 0x00000008 ↔ decode w = .command .decm)

/-- R55, R125: the three classes of reserved words; each raises ILLEGAL_CMD (STATUS 4) in every state and changes
nothing else, and every other word is a command. -/
def Obligations.ReservedWordsRaiseIllegalCmd : Prop :=
  ∀ w : Word,
    let op := w.toNat % 256
    let off := w.toNat / 256
    if op = 0 ∨ 0x09 ≤ op ∨ (0x03 ≤ op ∧ op ≤ 0x08 ∧ off ≠ 0) then
      ∀ s : State, hostRegWrite 7 w s = .next { s with status := 4 }
    else ∃ i, decode w = .command i

/-- 95_test_vectors.md section 2.1: words written out from the encoding. -/
def Obligations.SpecWordsDecode : Prop :=
  decode 0x00000301 = .command (.btw 3) ∧ decode 0xFFFFFF02 = .command (.wtb 16777215) ∧
  decode 0x00000003 = .command .encb ∧ decode 0x00000004 = .command .decb ∧
  decode 0x00000005 = .command .pad ∧ decode 0x00000006 = .command .unpad ∧
  decode 0x00000007 = .command .encm ∧ decode 0x00000008 = .command .decm ∧
  (∃ r, decode 0x00000000 = .reserved r) ∧ (∃ r, decode 0x00000009 = .reserved r) ∧
  (∃ r, decode 0x00000103 = .reserved r) ∧ (∃ r, decode 0x80000008 = .reserved r)

/-! ## Steps and host transactions -/

/-- 20_memory.md section 2 and 30_encoding.md section 1: when the next event is a RegWrite of a command word to CMD,
the step is the command, run in the state in which that event is no longer pending (the model's own field, log
entry 4). -/
def Obligations.StepRunsTheDecodedCommand : Prop :=
  ∀ (s : State) (w : Word) (rest : List Event) (i : Instr),
    s.pending = .txn (.regWrite 7 w) :: rest → decode w = .command i →
    i.wellFormed = true ∧ step s = exec i { s with pending := rest }

/-- 00_scope.md section 4: a step is one event from outside, and nothing happens between events (the list of
pending events is the model's own, log entry 4; what a reset leaves in K, V and BUF are its free values, log entry
6). -/
def Obligations.StepIssuesTheNextEvent : Prop :=
  (∀ s : State, s.pending = [] → step s = .next s) ∧
  (∀ (s : State) (t : Txn) (rest : List Event), s.pending = .txn t :: rest →
    step s = transact t { s with pending := rest }) ∧
  (∀ (s : State) (rest : List Event), s.pending = .reset :: rest →
    step s = .next (resetEngine { s with pending := rest }))

/-- R32: what RegWrite does for each register number. -/
def Obligations.RegWriteStoresOrRunsTheCommand : Prop :=
  ∀ (s : State) (v : Word),
    transact (.regWrite 0 v) s = .next { s with k := { s.k with k0 := v } } ∧
    transact (.regWrite 1 v) s = .next { s with k := { s.k with k1 := v } } ∧
    transact (.regWrite 2 v) s = .next { s with k := { s.k with k2 := v } } ∧
    transact (.regWrite 3 v) s = .next { s with k := { s.k with k3 := v } } ∧
    transact (.regWrite 4 v) s = .next { s with v0 := v } ∧
    transact (.regWrite 5 v) s = .next { s with v1 := v } ∧
    transact (.regWrite 6 v) s = .next { s with len := v } ∧
    (∀ i, decode v = .command i → transact (.regWrite 7 v) s = exec i s) ∧
    (∀ r, decode v = .reserved r → transact (.regWrite 7 v) s = .next { s with status := 4 }) ∧
    transact (.regWrite 8 v) s = .next s

/-- R33: what RegRead returns for each register number; nothing else changes (the list of returned values is the
model's own, log entry 5). -/
def Obligations.RegReadReturnsTheRegister : Prop :=
  ∀ s : State,
    let returns := fun (n : Nat) (v : Word) =>
      transact (.regRead n) s = .next { s with reads := s.reads ++ [.word v] }
    returns 0 s.k.k0 ∧ returns 1 s.k.k1 ∧ returns 2 s.k.k2 ∧ returns 3 s.k.k3 ∧
    returns 4 s.v0 ∧ returns 5 s.v1 ∧ returns 6 s.len ∧ returns 7 0 ∧ returns 8 s.status

/-- R36: a transaction outside the map is refused. -/
def Obligations.TransactionsOutsideTheMapAreRefused : Prop :=
  (∀ (s : State) (n : Nat) (v : Word), 8 < n →
    transact (.regWrite n v) s = .refused (.noSuchRegister n) ∧
    transact (.regRead n) s = .refused (.noSuchRegister n)) ∧
  (∀ (s : State) (a : Nat) (b : Byte), s.cfg.cap ≤ a →
    transact (.bufWrite a b) s = .refused (.noSuchOffset a) ∧
    transact (.bufRead a) s = .refused (.noSuchOffset a))

/-- R34: BufWrite writes its byte, whether below or above LEN, and nothing else. -/
def Obligations.BufWriteChangesOneByte : Prop :=
  ∀ (s : State) (a : Nat) (b : Byte), Memory.wf s.buf → a < s.cfg.cap →
    ∃ t, transact (.bufWrite a b) s = .next t ∧ t = { s with buf := t.buf } ∧
      Memory.read t.buf a = b ∧ ∀ x, x ≠ a → Memory.read t.buf x = Memory.read s.buf x

/-- 20_memory.md section 2: BufRead returns the byte and changes nothing (the list of returned values is the model's
own, log entry 5). -/
def Obligations.BufReadReturnsTheByte : Prop :=
  ∀ (s : State) (a : Nat), a < s.cfg.cap →
    transact (.bufRead a) s = .next { s with reads := s.reads ++ [.byte (Memory.read s.buf a)] }

/-- 20_memory.md sections 2 and 7: every legal transaction succeeds in every state. -/
def Obligations.EveryLegalTransactionSucceeds : Prop :=
  ∀ (t : Txn) (s : State), t.legal s.cfg.cap = true → ∃ s', transact t s = .next s'

/-- 20_memory.md sections 2 and 7: a step stops only where the next event is a transaction outside the map; no command,
no error and no reset ever stops the machine. The list of pending events is the model's own field, and that a step with
nothing pending goes on unchanged is the model's choice (log entry 4). -/
def Obligations.StepStopsOnlyOutsideTheMap : Prop :=
  ∀ s : State,
    (∀ s', step s ≠ .next s') ↔
      ∃ (t : Txn) (rest : List Event), s.pending = .txn t :: rest ∧ t.legal s.cfg.cap = false

/-- 10_state.md section 4: only a command (a RegWrite to CMD) or a reset changes STATUS. -/
def Obligations.StatusChangesOnlyByCommandOrReset : Prop :=
  ∀ (e : Event) (s t : State), perform e s = .next t → t.status ≠ s.status →
    e = .reset ∨ ∃ v, e = .txn (.regWrite 7 v)

/-- 10_state.md section 2: K is written only by a RegWrite to register number 0 to 3 (or becomes unspecified in a
reset). The list of pending events is the model's own field (log entry 4). -/
def Obligations.KeyChangesOnlyByHostWriteOrReset : Prop :=
  ∀ s t : State, step s = .next t → t.k ≠ s.k →
    ∃ rest, s.pending = .reset :: rest ∨ ∃ n v, n ≤ 3 ∧ s.pending = .txn (.regWrite n v) :: rest

/-- 30_encoding.md section 7: the pseudo-operations expand to the transactions shown and to nothing else. The last
clause is the spec's own example of a quoted string, a point the spec marks "from general knowledge, not in source";
that a string is a list of characters, and that a byte list of 2^32 or more bytes has its length taken mod 2^32, are
the model's choices (log entry 15). -/
def Obligations.PseudoOperationsExpand : Prop :=
  (∀ a b c d : Word, expandLine (.ldkey a b c d) =
    [.regWrite 0 a, .regWrite 1 b, .regWrite 2 c, .regWrite 3 d]) ∧
  (∀ (a : Nat) (bs : List Byte), expandLine (.ldbuf a bs) =
    bs.zipIdx.map fun p => .bufWrite (a + p.2) p.1) ∧
  (∀ bs : List Byte, expandLine (.ldmsg bs) =
    expandLine (.ldbuf 0 bs) ++ expandLine (.wr .len (BitVec.ofNat 32 bs.length))) ∧
  asciiBytes ['H', 'O', 'L', 'A', '1', '2', '3', '4'] = [0x48, 0x4F, 0x4C, 0x41, 0x31, 0x32, 0x33, 0x34]

/-! ## What every command keeps to -/

/-- R20, the command rows: what each command leaves unchanged, in every outcome. It also says that the model's own
fields `resets`, `pending` and `reads` stay (log entries 4, 5, 6). -/
def Obligations.CommandsWriteOnlyTheirState : Prop :=
  ∀ (i : Instr) (s t : State), Memory.wf s.buf → exec i s = .next t →
    let n := s.len.toNat
    t.cfg = s.cfg ∧ t.k = s.k ∧ t.resets = s.resets ∧ t.pending = s.pending ∧ t.reads = s.reads ∧
    match i with
    | .btw _ => t.len = s.len ∧ ∀ a, Memory.read t.buf a = Memory.read s.buf a
    | .wtb off => t.v0 = s.v0 ∧ t.v1 = s.v1 ∧ t.len = s.len ∧
        ∀ a, Outside off 8 a → Memory.read t.buf a = Memory.read s.buf a
    | .encb => t.len = s.len ∧ ∀ a, Memory.read t.buf a = Memory.read s.buf a
    | .decb => t.len = s.len ∧ ∀ a, Memory.read t.buf a = Memory.read s.buf a
    | .pad => t.v0 = s.v0 ∧ t.v1 = s.v1 ∧
        ∀ a, Outside n (padLen n) a → Memory.read t.buf a = Memory.read s.buf a
    | .unpad => t.v0 = s.v0 ∧ t.v1 = s.v1 ∧ ∀ a, Memory.read t.buf a = Memory.read s.buf a
    | .encm => t.v0 = s.v0 ∧ t.v1 = s.v1 ∧
        ∀ a, n + padLen n ≤ a → Memory.read t.buf a = Memory.read s.buf a
    | .decm => t.v0 = s.v0 ∧ t.v1 = s.v1 ∧ ∀ a, n ≤ a → Memory.read t.buf a = Memory.read s.buf a

/-- R121, the "Raised by" column: every command completes, and ends with one of the codes its rule gives it. -/
def Obligations.EveryCommandEndsWithItsCodes : Prop :=
  ∀ (i : Instr) (s : State), ∃ t, exec i s = .next t ∧
    match i with
    | .btw _ => t.status = 0 ∨ t.status = 3
    | .wtb _ => t.status = 0 ∨ t.status = 3
    | .encb => t.status = 0
    | .decb => t.status = 0
    | .pad => t.status = 0 ∨ t.status = 3
    | .unpad => t.status = 0 ∨ t.status = 2 ∨ t.status = 3
    | .encm => t.status = 0 ∨ t.status = 3
    | .decm => t.status = 0 ∨ t.status = 1 ∨ t.status = 2 ∨ t.status = 3

/-- 60_exceptions.md section 4: apart from STATUS, an erroring command leaves the state as it was, with the single
exception of DECM's PADDING_ERROR. -/
def Obligations.ErrorsChangeOnlyStatus : Prop :=
  ∀ (i : Instr) (s t : State), exec i s = .next t → t.status ≠ 0 → ¬(i = .decm ∧ t.status = 2) →
    t = { s with status := t.status }

/-- 60_exceptions.md section 5: the outcome of the command before has no influence on a command. -/
def Obligations.CommandsIgnoreTheLastOutcome : Prop :=
  ∀ (i : Instr) (s : State) (x : Word), exec i { s with status := x } = exec i s

/-- 10_state.md section 2 and 43_pipeline.md section 1: PAD, UNPAD, ENCM and DECM neither read nor write V. -/
def Obligations.MessageCommandsIgnoreTheBlock : Prop :=
  ∀ (i : Instr) (s : State) (a b : Word), i = .pad ∨ i = .unpad ∨ i = .encm ∨ i = .decm →
    ∃ t, exec i s = .next t ∧ t.v0 = s.v0 ∧ t.v1 = s.v1 ∧
      exec i { s with v0 := a, v1 := b } = .next { t with v0 := a, v1 := b }

/-- 10_state.md sections 4 and 7: BTW, WTB, ENCB and DECB neither read nor write LEN. -/
def Obligations.BlockCommandsIgnoreTheLength : Prop :=
  ∀ (i : Instr) (s : State) (n : Word), (∃ off, i = .btw off ∨ i = .wtb off) ∨ i = .encb ∨ i = .decb →
    ∃ t, exec i s = .next t ∧ t.len = s.len ∧ exec i { s with len := n } = .next { t with len := n }

/-- 10_state.md section 7: BTW, WTB, PAD and UNPAD do not read K; ENCB and DECB do not read BUF. -/
def Obligations.CodecAndPaddingIgnoreTheKeyCipherIgnoresTheBuffer : Prop :=
  (∀ (i : Instr) (s : State) (k : Key), (∃ off, i = .btw off ∨ i = .wtb off) ∨ i = .pad ∨ i = .unpad →
    ∃ t, exec i s = .next t ∧ exec i { s with k := k } = .next { t with k := k }) ∧
  (∀ (i : Instr) (s : State) (m : List Host.Cell), i = .encb ∨ i = .decb →
    ∃ t, exec i s = .next t ∧ exec i { s with buf := m } = .next { t with buf := m })

/-! ## The word codec -/

/-- R70: B2W is big-endian. -/
def Obligations.BytesToWordsIsBigEndian : Prop :=
  ∀ c : Chunk,
    (b2w c).1.toNat = c.b0.toNat * 2 ^ 24 + c.b1.toNat * 2 ^ 16 + c.b2.toNat * 2 ^ 8 + c.b3.toNat ∧
    (b2w c).2.toNat = c.b4.toNat * 2 ^ 24 + c.b5.toNat * 2 ^ 16 + c.b6.toNat * 2 ^ 8 + c.b7.toNat

/-- 40_word_codec.md section 1, W2B: each byte is 8 bits of its word, the most significant first. -/
def Obligations.WordsToBytesListsHighBytesFirst : Prop :=
  ∀ w0 w1 : Word,
    (w2b (w0, w1)).toList.map BitVec.toNat =
      [w0.toNat / 2 ^ 24 % 256, w0.toNat / 2 ^ 16 % 256, w0.toNat / 2 ^ 8 % 256, w0.toNat % 256,
       w1.toNat / 2 ^ 24 % 256, w1.toNat / 2 ^ 16 % 256, w1.toNat / 2 ^ 8 % 256, w1.toNat % 256]

/-- R72: the two functions are inverse bijections. -/
def Obligations.CodecRoundTrips : Prop :=
  (∀ c : Chunk, w2b (b2w c) = c) ∧ (∀ w0 w1 : Word, b2w (w2b (w0, w1)) = (w0, w1))

/-- 40_word_codec.md section 2: BTW loads V from the 8 bytes at its offset, big-endian, and ends OK; nothing else
changes. -/
def Obligations.BtwLoadsTheBlock : Prop :=
  ∀ (s : State) (off : Nat), off + 8 ≤ s.cfg.cap →
    let byte := fun i => (Memory.read s.buf (off + i)).toNat
    exec (.btw off) s = .next { s with
      v0 := BitVec.ofNat 32 (byte 0 * 2 ^ 24 + byte 1 * 2 ^ 16 + byte 2 * 2 ^ 8 + byte 3)
      v1 := BitVec.ofNat 32 (byte 4 * 2 ^ 24 + byte 5 * 2 ^ 16 + byte 6 * 2 ^ 8 + byte 7)
      status := 0 }

/-- 40_word_codec.md section 3: WTB stores V to the 8 bytes at its offset, big-endian, and ends OK; nothing else
changes. -/
def Obligations.WtbStoresTheBlock : Prop :=
  ∀ (s : State) (off : Nat), Memory.wf s.buf → off + 8 ≤ s.cfg.cap →
    ∃ t, exec (.wtb off) s = .next t ∧ t = { s with buf := t.buf, status := 0 } ∧
      (∀ i, i < 4 → (Memory.read t.buf (off + i)).toNat = s.v0.toNat / 2 ^ (24 - 8 * i) % 256) ∧
      (∀ i, i < 4 → (Memory.read t.buf (off + 4 + i)).toNat = s.v1.toNat / 2 ^ (24 - 8 * i) % 256) ∧
      ∀ a, Outside off 8 a → Memory.read t.buf a = Memory.read s.buf a

/-- 40_word_codec.md section 3, corner cases: WTB then BTW leaves V as it was; BTW then WTB leaves BUF as it was. -/
def Obligations.CodecCommandsUndoEachOther : Prop :=
  ∀ (s : State) (off : Nat), s.Inv → off + 8 ≤ s.cfg.cap →
    (∃ t u, exec (.wtb off) s = .next t ∧ exec (.btw off) t = .next u ∧ u.v0 = s.v0 ∧ u.v1 = s.v1) ∧
    (∃ t u, exec (.btw off) s = .next t ∧ exec (.wtb off) t = .next u ∧ u.buf = s.buf)

/-! ## The cipher -/

/-- R81: the arithmetic of the cipher, on numbers. -/
def Obligations.WordArithmeticWraps : Prop :=
  ∀ (a b : Word) (n : Nat), n ≤ 31 →
    (add32 a b).toNat = (a.toNat + b.toNat) % 2 ^ 32 ∧
    (sub32 a b).toNat = (a.toNat + (2 ^ 32 - b.toNat)) % 2 ^ 32 ∧
    (shl32 a n).toNat = a.toNat * 2 ^ n % 2 ^ 32 ∧
    (shr32 a n).toNat = a.toNat / 2 ^ n ∧
    ∀ i, i < 32 → ((xor32 a b).getLsbD i = true ↔ a.getLsbD i ≠ b.getLsbD i)

/-- R82: the mixing function, on numbers: three wrapping sums, combined by exclusive or. -/
def Obligations.MixingFunctionIsTheFormula : Prop :=
  ∀ x s ka kb : Word,
    (mix x s ka kb).toNat =
      ((x.toNat * 16 % 2 ^ 32 + ka.toNat) % 2 ^ 32) ^^^ ((x.toNat + s.toNat) % 2 ^ 32) ^^^
        ((x.toNat / 32 + kb.toNat) % 2 ^ 32)

/-- R85 (and the converse): a decryption round undoes the encryption round with the same `sum`. -/
def Obligations.RoundsUndoEachOther : Prop :=
  ∀ (v : Word × Word) (s : Word) (k : Key),
    (let v1 := v.2 - mix v.1 s k.k2 k.k3
     decRound v s k = (v.1 - mix v1 s k.k0 k.k1, v1)) ∧
    decRound (encRound v s k) s k = v ∧ encRound (decRound v s k) s k = v

/-- 41_tea_core.md section 4: round `i` of encryption uses `sum_i = i * DELTA mod 2^32`, and decryption round `j`
uses `sum_(33-j)`, each 32 times. -/
def Obligations.KeyScheduleIsMultiplesOfDelta : Prop :=
  ∀ (k : Key) (v : Word × Word),
    teaEncrypt k v =
      (List.range 32).foldl (fun v i => encRound v (BitVec.ofNat 32 ((i + 1) * 0x9E3779B9)) k) v ∧
    teaDecrypt k v =
      (List.range 32).foldl (fun v j => decRound v (BitVec.ofNat 32 ((32 - j) * 0x9E3779B9)) k) v

/-- R88: decryption undoes encryption for every block and every key, and the other way round. -/
def Obligations.BlockCipherRoundTrips : Prop :=
  ∀ (k : Key) (v : Word × Word), teaDecrypt k (teaEncrypt k v) = v ∧ teaEncrypt k (teaDecrypt k v) = v

/-- R89: for a fixed key both functions are bijections on blocks. -/
def Obligations.BlockCipherIsABijection : Prop :=
  ∀ k : Key, Function.Bijective (teaEncrypt k) ∧ Function.Bijective (teaDecrypt k)

/-- 41_tea_core.md section 7: ENCB encrypts V in place under K and always ends OK; nothing else changes. -/
def Obligations.EncbEncryptsTheBlock : Prop :=
  ∀ s : State,
    let c := (List.range 32).foldl
      (fun v i => encRound v (BitVec.ofNat 32 ((i + 1) * 0x9E3779B9)) s.k) (s.v0, s.v1)
    exec .encb s = .next { s with v0 := c.1, v1 := c.2, status := 0 }

/-- 41_tea_core.md section 8: DECB decrypts V in place under K and always ends OK; nothing else changes. -/
def Obligations.DecbDecryptsTheBlock : Prop :=
  ∀ s : State,
    let p := (List.range 32).foldl
      (fun v j => decRound v (BitVec.ofNat 32 ((32 - j) * 0x9E3779B9)) s.k) (s.v0, s.v1)
    exec .decb s = .next { s with v0 := p.1, v1 := p.2, status := 0 }

/-! ## The padding engine -/

/-- R100: the table of PadLen and the identities it gives. -/
def Obligations.PadLenReachesTheNextBlock : Prop :=
  ∀ n : Nat,
    (n % 8 = 0 → padLen n = 8) ∧ (n % 8 ≠ 0 → padLen n = 8 - n % 8) ∧
    1 ≤ padLen n ∧ padLen n ≤ 8 ∧ (n + padLen n) % 8 = 0 ∧ n + padLen n = 8 * (n / 8 + 1)

/-- R101: what Pad returns, and the two invariants of its length. -/
def Obligations.PadAppendsThePadLength : Prop :=
  ∀ m : List Byte,
    let p := padLen m.length
    pad m = m ++ List.replicate p (BitVec.ofNat 8 p) ∧ (pad m).length % 8 = 0 ∧
    m.length + 1 ≤ (pad m).length ∧ (pad m).length ≤ m.length + 8 ∧ (pad m).take m.length = m

/-- R103: when UnpadCheck is valid, and that it accepts what Pad made. -/
def Obligations.UnpadCheckAcceptsExactlyPadding : Prop :=
  (∀ (bs : List Byte) (p : Nat),
    unpadCheck bs = .valid p ↔
      1 ≤ p ∧ p ≤ 8 ∧ p ≤ bs.length ∧
      ∀ i, bs.length - p ≤ i → i < bs.length → bs[i]? = some (BitVec.ofNat 8 p)) ∧
  (∀ m : List Byte, unpadCheck (pad m) = .valid (padLen m.length))

/-- 42_padding.md section 2: PAD appends `p` bytes of value `p` at LEN, adds `p` to LEN and ends OK; nothing else
changes. -/
def Obligations.PadAppendsToTheMessage : Prop :=
  ∀ s : State, s.Inv →
    let n := s.len.toNat
    let p := padLen n
    n + p ≤ s.cfg.cap →
      ∃ t, exec .pad s = .next t ∧ t = { s with buf := t.buf, len := t.len, status := 0 } ∧
        t.len.toNat = n + p ∧
        (∀ i, i < p → Memory.read t.buf (n + i) = BitVec.ofNat 8 p) ∧
        ∀ a, Outside n p a → Memory.read t.buf a = Memory.read s.buf a

/-- R124 and 60_exceptions.md section 3: the three situations of CAPACITY_ERROR, which wins over every error of state
and changes nothing but STATUS (3). -/
def Obligations.CapacityErrorsChangeNothing : Prop :=
  (∀ (s : State) (off : Nat), s.cfg.cap < off + 8 →
    exec (.btw off) s = .next { s with status := 3 } ∧ exec (.wtb off) s = .next { s with status := 3 }) ∧
  (∀ s : State, s.cfg.cap < s.len.toNat →
    exec .pad s = .next { s with status := 3 } ∧ exec .unpad s = .next { s with status := 3 } ∧
    exec .encm s = .next { s with status := 3 } ∧ exec .decm s = .next { s with status := 3 }) ∧
  (∀ s : State, s.len.toNat ≤ s.cfg.cap → s.cfg.cap < s.len.toNat + padLen s.len.toNat →
    exec .pad s = .next { s with status := 3 } ∧ exec .encm s = .next { s with status := 3 })

/-- R7: the longest message PAD or ENCM takes has CAP - 1 bytes, the longest ciphertext DECM takes has CAP bytes. -/
def Obligations.LongestMessageIsOneBelowCapacity : Prop :=
  ∀ s : State, s.cfg.WF →
    (∃ t, exec .pad s = .next t ∧ (t.status = 0 ↔ s.len.toNat ≤ s.cfg.cap - 1)) ∧
    (∃ t, exec .encm s = .next t ∧ (t.status = 0 ↔ s.len.toNat ≤ s.cfg.cap - 1)) ∧
    (∃ t, exec .decm s = .next t ∧ (t.status ≠ 3 ↔ s.len.toNat ≤ s.cfg.cap))

/-- 42_padding.md section 3: UNPAD of a message that ends in `p` bytes of value `p` lowers LEN by `p` and ends OK;
nothing else changes, BUF included. -/
def Obligations.UnpadRemovesThePadding : Prop :=
  ∀ (s : State) (p : Nat),
    let n := s.len.toNat
    n ≤ s.cfg.cap → 1 ≤ p → p ≤ 8 → p ≤ n →
    (∀ a, n - p ≤ a → a < n → Memory.read s.buf a = BitVec.ofNat 8 p) →
      exec .unpad s = .next { s with len := BitVec.ofNat 32 (n - p), status := 0 }

/-- 42_padding.md sections 1 and 3: UNPAD of a message whose padding is absent, zero, oversized or inconsistent ends in
PADDING_ERROR (STATUS 2) and changes nothing else. -/
def Obligations.UnpadReportsInvalidPadding : Prop :=
  ∀ s : State,
    let n := s.len.toNat
    let last := (Memory.read s.buf (n - 1)).toNat
    n ≤ s.cfg.cap →
    (n = 0 ∨ last = 0 ∨ 8 < last ∨ n < last ∨
      ∃ a, n - last ≤ a ∧ a < n ∧ (Memory.read s.buf a).toNat ≠ last) →
      exec .unpad s = .next { s with status := 2 }

/-- 42_padding.md section 3, corner cases: PAD then UNPAD restores LEN and leaves the message as it was. -/
def Obligations.PadThenUnpadRestoresTheMessage : Prop :=
  ∀ s : State, s.Inv → s.len.toNat < s.cfg.cap →
    ∃ t u, exec .pad s = .next t ∧ exec .unpad t = .next u ∧ u.len = s.len ∧ u.status = 0 ∧
      ∀ a, a < s.len.toNat → Memory.read u.buf a = Memory.read s.buf a

/-! ## The message pipeline -/

/-- R110, R113: the block loops transform each of their blocks, at its own place and by the key alone, and touch
nothing else. -/
def Obligations.BlockLoopsTransformEachBlock : Prop :=
  ∀ (k : Key) (n : Nat) (m : List Host.Cell), Memory.wf m → n % 8 = 0 →
    (∀ j, j < n / 8 →
      b2w (readChunk (encryptBlocks k n m) (8 * j)) = teaEncrypt k (b2w (readChunk m (8 * j))) ∧
      b2w (readChunk (decryptBlocks k n m) (8 * j)) = teaDecrypt k (b2w (readChunk m (8 * j)))) ∧
    (∀ a, n ≤ a → Memory.read (encryptBlocks k n m) a = Memory.read m a ∧
      Memory.read (decryptBlocks k n m) a = Memory.read m a)

/-- 20_memory.md section 8: two blocks may be processed in either order. -/
def Obligations.BlockOrderCannotBeObserved : Prop :=
  ∀ (f : Word × Word → Word × Word) (m : List Host.Cell) (i j : Nat), Memory.wf m → i ≠ j →
    transformBlock f (transformBlock f m (8 * i)) (8 * j) =
      transformBlock f (transformBlock f m (8 * j)) (8 * i)

/-- 43_pipeline.md section 2: ENCM pads the message (the bytes of `padded`), encrypts every block of the result in
place, adds `p` to LEN and ends OK; nothing else changes. -/
def Obligations.EncmEncryptsThePaddedMessage : Prop :=
  ∀ s : State, s.Inv →
    let n := s.len.toNat
    let p := padLen n
    let padded := fun a => if a < n then Memory.read s.buf a else BitVec.ofNat 8 p
    n + p ≤ s.cfg.cap →
      ∃ t, exec .encm s = .next t ∧ t = { s with buf := t.buf, len := t.len, status := 0 } ∧
        t.len.toNat = n + p ∧
        (∀ j, j < (n + p) / 8 →
          b2w (readChunk t.buf (8 * j)) =
            teaEncrypt s.k (b2w
              { b0 := padded (8 * j), b1 := padded (8 * j + 1), b2 := padded (8 * j + 2),
                b3 := padded (8 * j + 3), b4 := padded (8 * j + 4), b5 := padded (8 * j + 5),
                b6 := padded (8 * j + 6), b7 := padded (8 * j + 7) })) ∧
        ∀ a, n + p ≤ a → Memory.read t.buf a = Memory.read s.buf a

/-- 43_pipeline.md section 2, corner cases: ENCM equals PAD and then BTW, ENCB, WTB for each block in ascending order,
except that the sequence leaves the last ciphertext block in V. -/
def Obligations.EncmEqualsEncryptingByHand : Prop :=
  ∀ s : State, s.cfg.WF → s.len.toNat < s.cfg.cap →
    ∃ t u, exec .encm s = .next t ∧ runCommands (encryptByHand s.len.toNat) s = .next u ∧
      u = { t with v0 := u.v0, v1 := u.v1 }

/-- 43_pipeline.md section 3, the OK outcome: DECM decrypts every block in place; where the decrypted bytes end in
`p` bytes of value `p`, LEN goes down by `p` and STATUS is 0; nothing else changes. -/
def Obligations.DecmRecoversTheMessage : Prop :=
  ∀ (s : State) (p : Nat),
    let n := s.len.toNat
    let plain := decryptBlocks s.k n s.buf
    n ≤ s.cfg.cap → n % 8 = 0 → 1 ≤ p → p ≤ 8 → p ≤ n →
    (∀ a, n - p ≤ a → a < n → Memory.read plain a = BitVec.ofNat 8 p) →
      exec .decm s = .next { s with buf := plain, len := BitVec.ofNat 32 (n - p), status := 0 }

/-- 43_pipeline.md section 3, PADDING_ERROR: the decrypted bytes stay in BUF, LEN stays `n`, STATUS is 2. -/
def Obligations.DecmKeepsThePlaintextOnPaddingError : Prop :=
  ∀ s : State,
    let n := s.len.toNat
    let plain := decryptBlocks s.k n s.buf
    let last := (Memory.read plain (n - 1)).toNat
    n ≤ s.cfg.cap → n % 8 = 0 →
    (n = 0 ∨ last = 0 ∨ 8 < last ∨ n < last ∨
      ∃ a, n - last ≤ a ∧ a < n ∧ (Memory.read plain a).toNat ≠ last) →
      exec .decm s = .next { s with buf := plain, status := 2 }

/-- 43_pipeline.md section 3 and 60_exceptions.md section 1: a length that is not a multiple of 8 ends DECM in
ALIGNMENT_ERROR (STATUS 1) before any decryption; nothing else changes. -/
def Obligations.DecmChecksTheAlignment : Prop :=
  ∀ s : State, s.len.toNat ≤ s.cfg.cap → s.len.toNat % 8 ≠ 0 →
    exec .decm s = .next { s with status := 1 }

/-- R114: for every key, every CAP and every message of at most CAP - 1 bytes, ENCM then DECM ends OK and restores
the message and its length; the padding bytes stand above it. -/
def Obligations.EncmThenDecmRestoresTheMessage : Prop :=
  ∀ s : State, s.Inv →
    let n := s.len.toNat
    let p := padLen n
    n ≤ s.cfg.cap - 1 →
      ∃ t u, exec .encm s = .next t ∧ t.status = 0 ∧ exec .decm t = .next u ∧ u.status = 0 ∧
        u.len = s.len ∧ (∀ a, a < n → Memory.read u.buf a = Memory.read s.buf a) ∧
        (∀ a, n ≤ a → a < n + p → Memory.read u.buf a = BitVec.ofNat 8 p)

/-! ## Reset and the invariant -/

/-- R21: after reset LEN and STATUS are 0, in the state after reset and after every reset event of a run. -/
def Obligations.ResetClearsLengthAndStatus : Prop :=
  State.reset.len = 0 ∧ State.reset.status = 0 ∧
  ∀ s : State, ∃ t, perform .reset s = .next t ∧ t.len = 0 ∧ t.status = 0

/-- The state after reset meets the invariant. It rests on the capacity (log entry 3) and the empty store (log entry
2) that the model chose for `State.reset`. -/
def Obligations.ResetMeetsTheInvariant : Prop := State.reset.Inv

/-- Every step keeps the invariant: CAP stays admitted (R5), BUF stays a canonical store of CAP bytes (R17), STATUS
stays one of the codes 0 to 4 with bits 31:3 zero (R16). -/
def Obligations.EveryStepKeepsTheInvariant : Prop :=
  ∀ s t : State, s.Inv → step s = .next t → t.Inv ∧ t.cfg = s.cfg

/-- 10_state.md section 5, for the model's canonical store: two buffers that read alike at every offset are equal
data. -/
def Obligations.BuffersThatReadAlikeAreEqual : Prop :=
  ∀ m m' : List Host.Cell, Memory.wf m → Memory.wf m' →
    (∀ a, Memory.read m a = Memory.read m' a) → m = m'
end

