-- ==== Sys2Proof/Laws/Memory.lean ====
section
/-! SUPPORT. The laws of the byte store: every operation keeps the canonical form and the capacity bound, a read
after a write gives what was written, and a write leaves every other offset alone. -/

namespace Sys2Proof.Machine

theorem Memory.wf_nil : Memory.wf [] := ⟨.nil, by simp⟩

theorem Memory.wf_tail {c : Host.Cell} {m : List Host.Cell} (h : Memory.wf (c :: m)) : Memory.wf m :=
  ⟨h.1.of_cons, fun d hd => h.2 d (List.mem_cons_of_mem c hd)⟩

/-- In a canonical store the first entry's offset is below all the others. -/
theorem Memory.wf_head_lt {x : Nat} {c : Byte} {m : List Host.Cell} (h : Memory.wf ((x, c) :: m)) :
    ∀ d ∈ m, x < d.1 :=
  fun d hd => (List.pairwise_cons.mp h.1).1 d hd

/-- An offset no entry has reads as unlisted. -/
theorem Memory.read_unlisted {m : List Host.Cell} {a : Nat} (h : ∀ d ∈ m, d.1 ≠ a) :
    Memory.read m a = unlistedByte := by
  induction m with
  | nil => rfl
  | cons c m ih =>
    obtain ⟨x, b⟩ := c
    have hx : x ≠ a := h (x, b) (List.mem_cons_self ..)
    simp only [Memory.read, if_neg hx]
    exact ih fun d hd => h d (List.mem_cons_of_mem _ hd)

theorem Memory.wf_cons {a : Nat} {b : Byte} {m : List Host.Cell} (h : Memory.wf m) (ha : ∀ d ∈ m, a < d.1) :
    Memory.wf (Memory.cons a b m) := by
  unfold Memory.cons
  split
  · exact h
  · next hb =>
    refine ⟨List.pairwise_cons.mpr ⟨ha, h.1⟩, ?_⟩
    rintro d (_ | ⟨_, hd⟩)
    · exact hb
    · exact h.2 d hd

theorem Memory.mem_cons {a : Nat} {b : Byte} {m : List Host.Cell} {d : Host.Cell}
    (h : d ∈ Memory.cons a b m) : d.1 = a ∨ d ∈ m := by
  unfold Memory.cons at h
  split at h
  · exact .inr h
  · rcases List.mem_cons.mp h with rfl | h
    · exact .inl rfl
    · exact .inr h

theorem Memory.read_cons {a : Nat} {b : Byte} {m : List Host.Cell} (ha : ∀ d ∈ m, a < d.1) (x : Nat) :
    Memory.read (Memory.cons a b m) x = if x = a then b else Memory.read m x := by
  unfold Memory.cons
  split
  · next hb =>
    split
    · next hx =>
      subst hx hb
      exact Memory.read_unlisted fun d hd => (ha d hd).ne'
    · rfl
  · simp only [Memory.read, eq_comm (a := a)]

/-- What a write lists: the written offset, or what was listed before. -/
theorem Memory.mem_write {m : List Host.Cell} {a : Nat} {b : Byte} {d : Host.Cell}
    (h : d ∈ Memory.write m a b) : d.1 = a ∨ d ∈ m := by
  induction m with
  | nil => exact Memory.mem_cons h
  | cons c m ih =>
    obtain ⟨x, e⟩ := c
    simp only [Memory.write] at h
    split at h
    · exact Memory.mem_cons h
    · split at h
      · exact (Memory.mem_cons h).imp_right (List.mem_cons_of_mem _)
      · rcases List.mem_cons.mp h with rfl | h
        · exact .inr (List.mem_cons_self ..)
        · exact (ih h).imp_right (List.mem_cons_of_mem _)

/-- A write keeps the canonical form. -/
theorem Memory.wf_write {m : List Host.Cell} (h : Memory.wf m) (a : Nat) (b : Byte) :
    Memory.wf (Memory.write m a b) := by
  induction m with
  | nil => exact Memory.wf_cons Memory.wf_nil (by simp)
  | cons c m ih =>
    obtain ⟨x, e⟩ := c
    have htl := Memory.wf_tail h
    have hlt := Memory.wf_head_lt h
    simp only [Memory.write]
    split
    · next hax =>
      refine Memory.wf_cons h ?_
      rintro d (_ | ⟨_, hd⟩)
      · exact hax
      · exact hax.trans (hlt d hd)
    · split
      · next hax => subst hax; exact Memory.wf_cons htl hlt
      · next h1 h2 =>
        have hw := ih htl
        refine ⟨List.pairwise_cons.mpr ⟨fun d hd => ?_, hw.1⟩, ?_⟩
        · rcases Memory.mem_write hd with hd | hd
          · have : x < a := by omega
            exact hd ▸ this
          · exact hlt d hd
        · rintro d (_ | ⟨_, hd⟩)
          · exact h.2 _ (List.mem_cons_self ..)
          · exact hw.2 d hd

/-- Read after write: the byte written at its offset, what was there everywhere else. -/
theorem Memory.read_write {m : List Host.Cell} (h : Memory.wf m) (a : Nat) (b : Byte) (x : Nat) :
    Memory.read (Memory.write m a b) x = if x = a then b else Memory.read m x := by
  induction m with
  | nil => exact Memory.read_cons (by simp) x
  | cons c m ih =>
    obtain ⟨y, e⟩ := c
    have hlt := Memory.wf_head_lt h
    simp only [Memory.write]
    split
    · next hay =>
      refine Memory.read_cons ?_ x
      rintro d (_ | ⟨_, hd⟩)
      · exact hay
      · exact hay.trans (hlt d hd)
    · split
      · next hay =>
        subst hay
        rw [Memory.read_cons hlt]
        split
        · rfl
        · next hx => simp only [Memory.read, if_neg (Ne.symm hx)]
      · next h1 h2 =>
        simp only [Memory.read, ih (Memory.wf_tail h)]
        by_cases hx : x = a
        · have : y ≠ x := by omega
          simp [hx, hx ▸ this]
        · simp [hx]

theorem Memory.below_write {cap : Nat} {m : List Host.Cell} (h : Memory.below cap m) {a : Nat} (ha : a < cap)
    (b : Byte) : Memory.below cap (Memory.write m a b) := by
  intro d hd
  rcases Memory.mem_write hd with hd | hd
  · exact hd ▸ ha
  · exact h d hd

/-- A write inside the capacity keeps BUF a canonical store of CAP bytes. -/
theorem bufWF_write {cap : Nat} {m : List Host.Cell} (h : BufWF cap m) {a : Nat} (ha : a < cap) (b : Byte) :
    BufWF cap (Memory.write m a b) :=
  ⟨Memory.wf_write h.1 a b, Memory.below_write h.2 ha b⟩

@[simp] theorem memWrite_nil (m : List Host.Cell) (a : Nat) : memWrite m a [] = m := rfl

@[simp] theorem memWrite_cons (m : List Host.Cell) (a : Nat) (b : Byte) (bs : List Byte) :
    memWrite m a (b :: bs) = memWrite (Memory.write m a b) (a + 1) bs := rfl

/-- MemWrite keeps the canonical form. -/
theorem wf_memWrite {m : List Host.Cell} (h : Memory.wf m) (a : Nat) (bs : List Byte) :
    Memory.wf (memWrite m a bs) := by
  induction bs generalizing m a with
  | nil => exact h
  | cons b bs ih => exact ih (Memory.wf_write h a b) (a + 1)

/-- MemWrite inside the capacity keeps BUF a canonical store of CAP bytes. -/
theorem bufWF_memWrite {cap : Nat} {m : List Host.Cell} (h : BufWF cap m) {a : Nat} (bs : List Byte)
    (hfit : a + bs.length ≤ cap) : BufWF cap (memWrite m a bs) := by
  induction bs generalizing m a with
  | nil => exact h
  | cons b bs ih =>
    simp only [List.length_cons] at hfit
    exact ih (bufWF_write h (by omega) b) (by omega)

/-- MemWrite leaves every offset outside its bytes alone. -/
theorem read_memWrite_outside {m : List Host.Cell} (h : Memory.wf m) {a x : Nat} (bs : List Byte)
    (hx : Outside a bs.length x) : Memory.read (memWrite m a bs) x = Memory.read m x := by
  induction bs generalizing m a with
  | nil => rfl
  | cons b bs ih =>
    simp only [List.length_cons, Outside] at hx ih ⊢
    rw [memWrite_cons, ih (Memory.wf_write h a b) (by omega), Memory.read_write h, if_neg (by omega)]

/-- MemWrite puts its bytes where it says. -/
theorem read_memWrite_inside {m : List Host.Cell} (h : Memory.wf m) {a : Nat} (bs : List Byte) {i : Nat}
    (hi : i < bs.length) : Memory.read (memWrite m a bs) (a + i) = bs[i] := by
  induction bs generalizing m a i with
  | nil => simp at hi
  | cons b bs ih =>
    have hw := Memory.wf_write h a b
    cases i with
    | zero =>
      rw [memWrite_cons, read_memWrite_outside hw bs (Or.inl (by omega)), Memory.read_write h]
      simp
    | succ i =>
      have := ih hw (a := a + 1) (i := i) (by simpa using hi)
      rw [memWrite_cons, show a + (i + 1) = a + 1 + i by omega, this]
      rfl

@[simp] theorem length_memRead (m : List Host.Cell) (a n : Nat) : (memRead m a n).length = n := by
  induction n generalizing a with
  | zero => rfl
  | succ n ih => simp [memRead, ih]

/-- MemRead lists the bytes in order. -/
theorem getElem_memRead (m : List Host.Cell) (a n i : Nat) (hi : i < (memRead m a n).length) :
    (memRead m a n)[i] = Memory.read m (a + i) := by
  induction n generalizing a i with
  | zero => simp [memRead] at hi
  | succ n ih =>
    cases i with
    | zero => rfl
    | succ i =>
      simp only [memRead, List.getElem_cons_succ, ih]
      congr 1
      omega

/-- MemRead sees only its own bytes. -/
theorem memRead_congr {m m' : List Host.Cell} {a n : Nat}
    (h : ∀ i < n, Memory.read m (a + i) = Memory.read m' (a + i)) : memRead m a n = memRead m' a n := by
  refine List.ext_getElem (by simp) fun i hi _ => ?_
  rw [getElem_memRead, getElem_memRead, h i (by simpa using hi)]

theorem Memory.le_of_mem_fill {f : Nat → Byte} {a n : Nat} {d : Host.Cell} (h : d ∈ Memory.fill f a n) :
    a ≤ d.1 ∧ d.1 < a + n := by
  induction n generalizing a with
  | zero => simp [Memory.fill] at h
  | succ n ih =>
    rcases Memory.mem_cons h with h | h
    · omega
    · have := ih h
      omega

/-- The store a reset event leaves is canonical. -/
theorem Memory.wf_fill (f : Nat → Byte) (a n : Nat) : Memory.wf (Memory.fill f a n) := by
  induction n generalizing a with
  | zero => exact Memory.wf_nil
  | succ n ih => exact Memory.wf_cons (ih (a + 1)) fun d hd => (Memory.le_of_mem_fill hd).1

/-- The store a reset event leaves holds exactly the given bytes. -/
theorem Memory.read_fill (f : Nat → Byte) (a n x : Nat) (h : a ≤ x ∧ x < a + n) :
    Memory.read (Memory.fill f a n) x = f x := by
  induction n generalizing a with
  | zero => omega
  | succ n ih =>
    rw [Memory.fill, Memory.read_cons fun d hd => (Memory.le_of_mem_fill hd).1]
    split
    · next hx => rw [hx]
    · exact ih (a + 1) (by omega)

theorem bufWF_fill (f : Nat → Byte) (cap : Nat) : BufWF cap (Memory.fill f 0 cap) :=
  ⟨Memory.wf_fill f 0 cap, fun d hd => by have := Memory.le_of_mem_fill hd; omega⟩

end Sys2Proof.Machine
end

