-- ==== Sys2Proof/Laws/Blocks.lean ====
section
/-! SUPPORT. The laws of the 8-byte accesses and of the block loops (R39, R110): they keep BUF a canonical store
of CAP bytes and leave every other byte alone. -/

namespace Sys2Proof.Machine

@[simp] theorem Chunk.length_toList (c : Chunk) : c.toList.length = 8 := rfl

/-- The 8 bytes read are MemRead's. -/
theorem toList_readChunk (m : List Host.Cell) (a : Nat) : (readChunk m a).toList = memRead m a 8 := rfl

/-- An 8-byte read sees only its own bytes. -/
theorem readChunk_congr {m m' : List Host.Cell} {a : Nat}
    (h : ∀ i < 8, Memory.read m (a + i) = Memory.read m' (a + i)) : readChunk m a = readChunk m' a := by
  simp only [readChunk, Chunk.mk.injEq]
  exact ⟨h 0 (by omega), h 1 (by omega), h 2 (by omega), h 3 (by omega), h 4 (by omega), h 5 (by omega),
    h 6 (by omega), h 7 (by omega)⟩

theorem wf_writeChunk {m : List Host.Cell} (h : Memory.wf m) (a : Nat) (c : Chunk) :
    Memory.wf (writeChunk m a c) :=
  wf_memWrite h a c.toList

theorem bufWF_writeChunk {cap : Nat} {m : List Host.Cell} (h : BufWF cap m) {a : Nat} (c : Chunk)
    (hfit : a + 8 ≤ cap) : BufWF cap (writeChunk m a c) :=
  bufWF_memWrite h c.toList hfit

/-- An 8-byte write leaves every other byte alone. -/
theorem read_writeChunk_outside {m : List Host.Cell} (h : Memory.wf m) {a x : Nat} (c : Chunk)
    (hx : Outside a 8 x) : Memory.read (writeChunk m a c) x = Memory.read m x :=
  read_memWrite_outside h c.toList hx

/-- An 8-byte write puts its bytes in order. -/
theorem read_writeChunk_inside {m : List Host.Cell} (h : Memory.wf m) {a : Nat} (c : Chunk) {i : Nat}
    (hi : i < 8) : Memory.read (writeChunk m a c) (a + i) = c.toList[i] :=
  read_memWrite_inside h c.toList hi

/-- An 8-byte read after an 8-byte write at the same offset gives the bytes written. -/
theorem readChunk_writeChunk {m : List Host.Cell} (h : Memory.wf m) (a : Nat) (c : Chunk) :
    readChunk (writeChunk m a c) a = c := by
  have hr := fun i hi => read_writeChunk_inside h (a := a) c (i := i) hi
  obtain ⟨b0, b1, b2, b3, b4, b5, b6, b7⟩ := c
  simp only [readChunk, Chunk.mk.injEq]
  exact ⟨hr 0 (by omega), hr 1 (by omega), hr 2 (by omega), hr 3 (by omega), hr 4 (by omega), hr 5 (by omega),
    hr 6 (by omega), hr 7 (by omega)⟩

/-- One pass of a block loop keeps the canonical form. -/
theorem wf_transformBlock (f : Word × Word → Word × Word) {m : List Host.Cell} (h : Memory.wf m) (a : Nat) :
    Memory.wf (transformBlock f m a) :=
  wf_writeChunk h a _

/-- One pass of a block loop leaves every byte outside its block alone. -/
theorem read_transformBlock_outside (f : Word × Word → Word × Word) {m : List Host.Cell} (h : Memory.wf m)
    {a x : Nat} (hx : Outside a 8 x) : Memory.read (transformBlock f m a) x = Memory.read m x :=
  read_writeChunk_outside h _ hx

/-- One pass of a block loop puts the transformed block where it was. -/
theorem readChunk_transformBlock (f : Word × Word → Word × Word) {m : List Host.Cell} (h : Memory.wf m)
    (a : Nat) : readChunk (transformBlock f m a) a = w2b (f (b2w (readChunk m a))) :=
  readChunk_writeChunk h a _

theorem wf_transformBlocks (f : Word × Word → Word × Word) (count j : Nat) {m : List Host.Cell}
    (h : Memory.wf m) : Memory.wf (transformBlocks f count j m) := by
  induction count generalizing j m with
  | zero => exact h
  | succ count ih => exact ih (j + 1) (wf_writeChunk h _ _)

/-- The block loop keeps BUF a canonical store of CAP bytes when its blocks fit. -/
theorem bufWF_transformBlocks (f : Word × Word → Word × Word) (count j : Nat) {cap : Nat}
    {m : List Host.Cell} (h : BufWF cap m) (hfit : 8 * (j + count) ≤ cap) :
    BufWF cap (transformBlocks f count j m) := by
  induction count generalizing j m with
  | zero => exact h
  | succ count ih =>
    exact ih (j + 1) (bufWF_writeChunk h _ (by simp only [blockSize]; omega)) (by omega)

/-- The block loop leaves every byte outside its blocks alone. -/
theorem read_transformBlocks_outside (f : Word × Word → Word × Word) (count j : Nat) {m : List Host.Cell}
    (h : Memory.wf m) {x : Nat} (hx : Outside (8 * j) (8 * count) x) :
    Memory.read (transformBlocks f count j m) x = Memory.read m x := by
  induction count generalizing j m with
  | zero => rfl
  | succ count ih =>
    simp only [Outside] at hx ih
    rw [transformBlocks, ih (j + 1) (wf_transformBlock f h _) (by omega),
      read_transformBlock_outside f h (by simp only [blockSize, Outside]; omega)]

/-- How the block loop goes on after its first block. -/
theorem transformBlocks_succ (f : Word × Word → Word × Word) (count j : Nat) (m : List Host.Cell) :
    transformBlocks f (count + 1) j m = transformBlocks f count (j + 1) (transformBlock f m (8 * j)) := rfl

end Sys2Proof.Machine
end

