-- ==== Sys2Proof/Laws/PerInstr.lean ====
section
/-! SUPPORT. Per-instruction statements: the command word carries the command's OP value in bits 7:0 and its
offset in bits 31:8 (R51, R52). -/

namespace Sys2Proof

/-- The low 8 bits and the high 24 bits of the word `off*256 + op`, as numbers. -/
theorem fields_of_word (op off : Nat) (hop : op < 256) (hoff : off < 2 ^ 24) :
    opField (BitVec.ofNat 32 (off * 256 + op)) = op ∧ offField (BitVec.ofNat 32 (off * 256 + op)) = off := by
  have hw : (off * 256 + op) % 2 ^ 32 = off * 256 + op := Nat.mod_eq_of_lt (by omega)
  constructor
  · simp only [opField, BitVec.extractLsb'_toNat, BitVec.toNat_ofNat, hw, Nat.shiftRight_zero]
    omega
  · simp only [offField, BitVec.extractLsb'_toNat, BitVec.toNat_ofNat, hw, Nat.shiftRight_eq_div_pow]
    omega

end Sys2Proof

namespace Sys2Proof.Laws.OpcodeFields

/-- A well-formed command's word has the command's OP value and offset in its two fields. -/
def Statement (i : Instr) : Prop :=
  i.wellFormed = true → opField (encode i) = opcodeOf i ∧ offField (encode i) = offsetOf i

theorem btw (off : Nat) : Statement (.btw off) :=
  fun h => fields_of_word 1 off (by decide) (of_decide_eq_true h)

theorem wtb (off : Nat) : Statement (.wtb off) :=
  fun h => fields_of_word 2 off (by decide) (of_decide_eq_true h)

theorem encb : Statement .encb := fun _ => by decide

theorem decb : Statement .decb := fun _ => by decide

theorem pad : Statement .pad := fun _ => by decide

theorem unpad : Statement .unpad := fun _ => by decide

theorem encm : Statement .encm := fun _ => by decide

theorem decm : Statement .decm := fun _ => by decide

end Sys2Proof.Laws.OpcodeFields

namespace Sys2Proof

/-- R52: the eight rows of the opcode map are disjoint: no word matches two of them. -/
theorem opcodeMap_disjoint :
    opcodeMap.Pairwise fun r r' => r.pattern &&& r'.mask ≠ r'.pattern ∧ r'.pattern &&& r.mask ≠ r.pattern := by
  decide

/-- R52: a well-formed command's word matches the row of its mnemonic. -/
theorem opcodeMap_matches_fixed (i : Instr) (h : i = .encb ∨ i = .decb ∨ i = .pad ∨ i = .unpad ∨ i = .encm ∨ i = .decm) :
    ∃ r ∈ opcodeMap, r.mnemonic = mnemonicOf i ∧ encode i &&& r.mask = r.pattern := by
  rcases h with rfl | rfl | rfl | rfl | rfl | rfl <;> decide

end Sys2Proof
end

