-- ==== Sys2Proof/Laws/State.lean ====
section
/-! SUPPORT. One lemma per field per named update of the state, so that no proof unfolds a record update, and for
the register write and the reset event what they leave alone. -/

namespace Sys2Proof.Machine

@[simp] theorem setBlock_cfg (w : Word × Word) (s : State) : (setBlock w s).cfg = s.cfg := rfl
@[simp] theorem setBlock_k (w : Word × Word) (s : State) : (setBlock w s).k = s.k := rfl
@[simp] theorem setBlock_v0 (w : Word × Word) (s : State) : (setBlock w s).v0 = w.1 := rfl
@[simp] theorem setBlock_v1 (w : Word × Word) (s : State) : (setBlock w s).v1 = w.2 := rfl
@[simp] theorem setBlock_len (w : Word × Word) (s : State) : (setBlock w s).len = s.len := rfl
@[simp] theorem setBlock_status (w : Word × Word) (s : State) : (setBlock w s).status = s.status := rfl
@[simp] theorem setBlock_buf (w : Word × Word) (s : State) : (setBlock w s).buf = s.buf := rfl
@[simp] theorem setBlock_resets (w : Word × Word) (s : State) : (setBlock w s).resets = s.resets := rfl
@[simp] theorem setBlock_pending (w : Word × Word) (s : State) : (setBlock w s).pending = s.pending := rfl
@[simp] theorem setBlock_reads (w : Word × Word) (s : State) : (setBlock w s).reads = s.reads := rfl

@[simp] theorem setLen_cfg (n : Nat) (s : State) : (setLen n s).cfg = s.cfg := rfl
@[simp] theorem setLen_k (n : Nat) (s : State) : (setLen n s).k = s.k := rfl
@[simp] theorem setLen_v0 (n : Nat) (s : State) : (setLen n s).v0 = s.v0 := rfl
@[simp] theorem setLen_v1 (n : Nat) (s : State) : (setLen n s).v1 = s.v1 := rfl
@[simp] theorem setLen_len (n : Nat) (s : State) : (setLen n s).len = BitVec.ofNat 32 n := rfl
@[simp] theorem setLen_status (n : Nat) (s : State) : (setLen n s).status = s.status := rfl
@[simp] theorem setLen_buf (n : Nat) (s : State) : (setLen n s).buf = s.buf := rfl
@[simp] theorem setLen_resets (n : Nat) (s : State) : (setLen n s).resets = s.resets := rfl
@[simp] theorem setLen_pending (n : Nat) (s : State) : (setLen n s).pending = s.pending := rfl
@[simp] theorem setLen_reads (n : Nat) (s : State) : (setLen n s).reads = s.reads := rfl

@[simp] theorem setBuf_cfg (m : List Host.Cell) (s : State) : (setBuf m s).cfg = s.cfg := rfl
@[simp] theorem setBuf_k (m : List Host.Cell) (s : State) : (setBuf m s).k = s.k := rfl
@[simp] theorem setBuf_v0 (m : List Host.Cell) (s : State) : (setBuf m s).v0 = s.v0 := rfl
@[simp] theorem setBuf_v1 (m : List Host.Cell) (s : State) : (setBuf m s).v1 = s.v1 := rfl
@[simp] theorem setBuf_len (m : List Host.Cell) (s : State) : (setBuf m s).len = s.len := rfl
@[simp] theorem setBuf_status (m : List Host.Cell) (s : State) : (setBuf m s).status = s.status := rfl
@[simp] theorem setBuf_buf (m : List Host.Cell) (s : State) : (setBuf m s).buf = m := rfl
@[simp] theorem setBuf_resets (m : List Host.Cell) (s : State) : (setBuf m s).resets = s.resets := rfl
@[simp] theorem setBuf_pending (m : List Host.Cell) (s : State) : (setBuf m s).pending = s.pending := rfl
@[simp] theorem setBuf_reads (m : List Host.Cell) (s : State) : (setBuf m s).reads = s.reads := rfl

@[simp] theorem logRead_cfg (r : Response) (s : State) : (logRead r s).cfg = s.cfg := rfl
@[simp] theorem logRead_k (r : Response) (s : State) : (logRead r s).k = s.k := rfl
@[simp] theorem logRead_v0 (r : Response) (s : State) : (logRead r s).v0 = s.v0 := rfl
@[simp] theorem logRead_v1 (r : Response) (s : State) : (logRead r s).v1 = s.v1 := rfl
@[simp] theorem logRead_len (r : Response) (s : State) : (logRead r s).len = s.len := rfl
@[simp] theorem logRead_status (r : Response) (s : State) : (logRead r s).status = s.status := rfl
@[simp] theorem logRead_buf (r : Response) (s : State) : (logRead r s).buf = s.buf := rfl
@[simp] theorem logRead_resets (r : Response) (s : State) : (logRead r s).resets = s.resets := rfl
@[simp] theorem logRead_pending (r : Response) (s : State) : (logRead r s).pending = s.pending := rfl
@[simp] theorem logRead_reads (r : Response) (s : State) : (logRead r s).reads = s.reads ++ [r] := rfl

@[simp] theorem raise_cfg (e : Code) (s : State) : (raise e s).cfg = s.cfg := rfl
@[simp] theorem raise_k (e : Code) (s : State) : (raise e s).k = s.k := rfl
@[simp] theorem raise_v0 (e : Code) (s : State) : (raise e s).v0 = s.v0 := rfl
@[simp] theorem raise_v1 (e : Code) (s : State) : (raise e s).v1 = s.v1 := rfl
@[simp] theorem raise_len (e : Code) (s : State) : (raise e s).len = s.len := rfl
@[simp] theorem raise_status (e : Code) (s : State) : (raise e s).status = e.toWord := rfl
@[simp] theorem raise_buf (e : Code) (s : State) : (raise e s).buf = s.buf := rfl
@[simp] theorem raise_resets (e : Code) (s : State) : (raise e s).resets = s.resets := rfl
@[simp] theorem raise_pending (e : Code) (s : State) : (raise e s).pending = s.pending := rfl
@[simp] theorem raise_reads (e : Code) (s : State) : (raise e s).reads = s.reads := rfl

@[simp] theorem done_cfg (s : State) : (done s).cfg = s.cfg := rfl
@[simp] theorem done_k (s : State) : (done s).k = s.k := rfl
@[simp] theorem done_v0 (s : State) : (done s).v0 = s.v0 := rfl
@[simp] theorem done_v1 (s : State) : (done s).v1 = s.v1 := rfl
@[simp] theorem done_len (s : State) : (done s).len = s.len := rfl
@[simp] theorem done_status (s : State) : (done s).status = 0 := rfl
@[simp] theorem done_buf (s : State) : (done s).buf = s.buf := rfl
@[simp] theorem done_resets (s : State) : (done s).resets = s.resets := rfl
@[simp] theorem done_pending (s : State) : (done s).pending = s.pending := rfl
@[simp] theorem done_reads (s : State) : (done s).reads = s.reads := rfl

@[simp] theorem writeReg_cfg (s : State) (v : Word) (r : Reg) : (writeReg s v r).cfg = s.cfg := by
  cases r <;> rfl
@[simp] theorem writeReg_status (s : State) (v : Word) (r : Reg) : (writeReg s v r).status = s.status := by
  cases r <;> rfl
@[simp] theorem writeReg_buf (s : State) (v : Word) (r : Reg) : (writeReg s v r).buf = s.buf := by
  cases r <;> rfl
@[simp] theorem writeReg_resets (s : State) (v : Word) (r : Reg) : (writeReg s v r).resets = s.resets := by
  cases r <;> rfl
@[simp] theorem writeReg_pending (s : State) (v : Word) (r : Reg) : (writeReg s v r).pending = s.pending := by
  cases r <;> rfl
@[simp] theorem writeReg_reads (s : State) (v : Word) (r : Reg) : (writeReg s v r).reads = s.reads := by
  cases r <;> rfl

@[simp] theorem resetEngine_cfg (s : State) :
    (resetEngine s).cfg = s.cfg := rfl
@[simp] theorem resetEngine_len (s : State) :
    (resetEngine s).len = 0 := rfl
@[simp] theorem resetEngine_status (s : State) :
    (resetEngine s).status = 0 := rfl
@[simp] theorem resetEngine_buf (s : State) :
    (resetEngine s).buf = Memory.fill (Config.unspecifiedByte (held s) s.resets) 0 s.cfg.cap := rfl
@[simp] theorem resetEngine_resets (s : State) :
    (resetEngine s).resets = s.resets + 1 := rfl
@[simp] theorem resetEngine_pending (s : State) :
    (resetEngine s).pending = s.pending := rfl
@[simp] theorem resetEngine_reads (s : State) :
    (resetEngine s).reads = s.reads := rfl
@[simp] theorem resetEngine_k (s : State) :
    (resetEngine s).k = ⟨Config.unspecifiedWord (held s) s.resets 0, Config.unspecifiedWord (held s) s.resets 1,
      Config.unspecifiedWord (held s) s.resets 2, Config.unspecifiedWord (held s) s.resets 3⟩ := rfl
@[simp] theorem resetEngine_v0 (s : State) :
    (resetEngine s).v0 = Config.unspecifiedWord (held s) s.resets 4 := rfl
@[simp] theorem resetEngine_v1 (s : State) :
    (resetEngine s).v1 = Config.unspecifiedWord (held s) s.resets 5 := rfl

/-- The codes of R121, as numbers. -/
theorem Code.toWord_toNat (e : Code) :
    e.toWord.toNat = (match e with
      | .ok => 0 | .alignmentError => 1 | .paddingError => 2 | .capacityError => 3 | .illegalCmd => 4) := by
  cases e <;> rfl

/-- Whatever a command ends with is a code of R121. -/
theorem statusWF_toWord (e : Code) : StatusWF e.toWord := by
  cases e <;> decide

/-- A STATUS value some command produced reports exactly the outcome it was written for. -/
theorem Code.ofWord?_toWord (e : Code) : Code.ofWord? e.toWord = some e := by
  cases e <;> decide

/-- The numbers of R10 name the registers, and no other number does. -/
theorem Reg.ofNumber?_eq_some (n : Nat) (r : Reg) : Reg.ofNumber? n = some r ↔ r.number = n := by
  constructor
  · intro h
    unfold Reg.ofNumber? at h
    split at h <;> cases h <;> rfl
  · rintro rfl
    cases r <;> rfl

/-- No register number above 8 names a register (R36). -/
theorem Reg.ofNumber?_eq_none (n : Nat) : Reg.ofNumber? n = none ↔ 8 < n := by
  constructor
  · intro h
    by_contra hn
    have : n ≤ 8 := by omega
    interval_cases n <;> simp [Reg.ofNumber?] at h
  · intro h
    match n, h with
    | n + 9, _ => rfl

end Sys2Proof.Machine
end

