-- ==== Sys2Proof/Tests/Slice0.lean ====
section
/-! SUPPORT. Small tests, their expected results taken from spec/ (95_test_vectors.md unless another place is
named), and for every statement with hypotheses a witness that meets all of them. -/

namespace Sys2Proof.Tests

open Sys2Proof.Machine

/-- The key the test vectors use (95_test_vectors.md). -/
def keyS : Key := ⟨0x12345678, 0x9ABCDEF0, 0xFEDCBA98, 0x76543210⟩

/-- The all-zero key. -/
def keyZ : Key := ⟨0, 0, 0, 0⟩

/-- A state with capacity `cap`, key `k`, length `n` and the bytes `bs` from offset 0 on. -/
def st (cap : Nat) (k : Key) (n : Nat) (bs : List Byte) : State :=
  { State.reset with cfg := ⟨cap⟩, k := k, len := BitVec.ofNat 32 n, buf := memWrite [] 0 bs }

/-- What `f` sees in the next state; none where there is none. -/
def see {α : Type} (o : Host.Outcome State Fault Refusal) (f : State → α) : Option α :=
  match o with
  | .next s => some (f s)
  | .fault _ => none
  | .refused _ => none

/-- The bytes of "HOLA1234". -/
def hola : List Byte := [0x48, 0x4F, 0x4C, 0x41, 0x31, 0x32, 0x33, 0x34]

/-- "HOLA1234" under `keyS` (section 1, S4). -/
def holaCipher : List Byte :=
  [0xBE, 0x91, 0x73, 0x9F, 0xC5, 0xB3, 0x0D, 0x30, 0xCE, 0x1F, 0xFE, 0xBD, 0x32, 0x6D, 0x7B, 0xE3]

/-- Sixteen bytes 00, 01, ..., 0F (section 2.2). -/
def ramp : List Byte := [0, 1, 2, 3, 4, 5, 6, 7, 8, 9, 10, 11, 12, 13, 14, 15]

/-! ## Well-formedness: each check refuses an ill-formed term -/

theorem test_btw_offset_too_large : (Instr.btw (2 ^ 24)).wellFormed = false := by decide
theorem test_wtb_offset_too_large : (Instr.wtb (2 ^ 24)).wellFormed = false := by decide
theorem test_btw_highest_offset : (Instr.btw (2 ^ 24 - 1)).wellFormed = true := by decide
theorem test_cap_not_multiple_of_8 : ¬ Config.WF ⟨12⟩ := by decide
theorem test_cap_too_small : ¬ Config.WF ⟨0⟩ := by decide
theorem test_cap_too_large : ¬ Config.WF ⟨2 ^ 24 + 8⟩ := by decide
theorem test_memory_unsorted : ¬ Memory.wf [(2, 1), (1, 1)] := by decide
theorem test_memory_lists_unlisted_value : ¬ Memory.wf [(1, 0)] := by decide
theorem test_memory_above_capacity : ¬ Memory.below 8 [(8, 1)] := by decide
theorem test_status_code_five : ¬ StatusWF 5 := by decide
theorem test_illegal_transactions :
    (Txn.legal 32 (.regWrite 9 0), Txn.legal 32 (.regRead 9), Txn.legal 32 (.bufWrite 32 0),
      Txn.legal 32 (.bufRead 32)) = (false, false, false, false) := by decide

/-! ## Decoding: words written out bit by bit from 30_encoding.md R51 and R52 -/

theorem test_decode_btw : decode 0b00000000000000000000001100000001 = .command (.btw 3) := by decide
theorem test_decode_wtb : decode 0b11111111111111111111111100000010 = .command (.wtb 16777215) := by decide
theorem test_decode_encb : decode 0b00000000000000000000000000000011 = .command .encb := by decide
theorem test_decode_decb : decode 0b00000000000000000000000000000100 = .command .decb := by decide
theorem test_decode_pad : decode 0b00000000000000000000000000000101 = .command .pad := by decide
theorem test_decode_unpad : decode 0b00000000000000000000000000000110 = .command .unpad := by decide
theorem test_decode_encm : decode 0b00000000000000000000000000000111 = .command .encm := by decide
theorem test_decode_decm : decode 0b00000000000000000000000000001000 = .command .decm := by decide
theorem test_decode_all_zero : decode 0x00000000 = .reserved .opZero := by decide
theorem test_decode_op_zero_with_offset : decode 0x00000100 = .reserved .opZero := by decide
theorem test_decode_op_nine : decode 0x00000009 = .reserved .opUnassigned := by decide
theorem test_decode_op_ff : decode 0x000000FF = .reserved .opUnassigned := by decide
theorem test_decode_encb_with_offset : decode 0x00000103 = .reserved .offNotZero := by decide
theorem test_decode_decm_with_offset : decode 0x80000008 = .reserved .offNotZero := by decide
theorem test_encode_btw : encode (.btw 24) = 0x00001801 := by decide
theorem test_encode_decm : encode .decm = 0x00000008 := by decide
theorem test_table_word : decodeTableWord 32 0x00000802 = some (.wtb 8) := by decide
theorem test_table_word_reserved : decodeTableWord 32 0x00000009 = none := by decide
theorem test_table_word_too_wide : decodeTableWord 40 (2 ^ 32 + 3) = none := by decide

/-! ## The codec (section 2.2) -/

theorem test_b2w : b2w ⟨0x48, 0x4F, 0x4C, 0x41, 0x31, 0x32, 0x33, 0x34⟩ = (0x484F4C41, 0x31323334) := by decide
theorem test_w2b :
    (w2b (0xDEADBEEF, 0x01020304)).toList = [0xDE, 0xAD, 0xBE, 0xEF, 0x01, 0x02, 0x03, 0x04] := by decide
theorem test_btw_unaligned :
    see (exec (.btw 3) (st 16 keyZ 0 ramp)) (fun t => (t.v0, t.v1, t.status)) =
      some (0x03040506, 0x0708090A, 0) := by decide
theorem test_btw_past_the_end :
    see (exec (.btw 9) (st 16 keyZ 0 ramp)) (fun t => (t.v0, t.v1, t.status)) = some (0, 0, 3) := by decide
theorem test_wtb_at_the_end :
    see (exec (.wtb 8) { st 16 keyZ 0 ramp with v0 := 0xDEADBEEF, v1 := 0x01020304 })
      (fun t => (memRead t.buf 0 16, t.status)) =
      some ([0, 1, 2, 3, 4, 5, 6, 7, 0xDE, 0xAD, 0xBE, 0xEF, 1, 2, 3, 4], 0) := by decide
theorem test_wtb_past_the_end :
    see (exec (.wtb 9) { st 16 keyZ 0 ramp with v0 := 0xDEADBEEF }) (fun t => (memRead t.buf 0 16, t.status)) =
      some (ramp, 3) := by decide

/-! ## The cipher (sections 2.3 to 2.6) -/

theorem test_shr32_is_logical : shr32 0x80000000 5 = 0x04000000 := by decide
theorem test_sub32_wraps : sub32 0 0x9E3779B9 = 0x61C88647 := by decide
theorem test_mix : mix 0x31323334 0x9E3779B9 0x12345678 0x9ABCDEF0 = 0x767855DC := by decide
theorem test_enc_round :
    encRound (0x484F4C41, 0x31323334) 0x9E3779B9 keyS = (0xBEC7A21D, 0xFD15DBD2) := by decide
theorem test_dec_round :
    decRound (0xBEC7A21D, 0xFD15DBD2) 0x9E3779B9 keyS = (0x484F4C41, 0x31323334) := by decide
theorem test_encb :
    see (exec .encb { st 16 keyS 0 [] with v0 := 0x80000000, v1 := 1 }) (fun t => (t.v0, t.v1, t.status)) =
      some (0xE804785E, 0xFF71D724, 0) := by decide
theorem test_encb_zero :
    see (exec .encb (st 16 keyZ 0 [])) (fun t => (t.v0, t.v1)) = some (0x41EA3A0A, 0x94BAA940) := by decide
theorem test_decb :
    see (exec .decb { st 16 keyS 0 [] with v0 := 0xBE91739F, v1 := 0xC5B30D30 })
      (fun t => (t.v0, t.v1, t.status)) = some (0x484F4C41, 0x31323334, 0) := by decide +kernel
theorem test_decb_zero :
    see (exec .decb (st 16 keyZ 0 [])) (fun t => (t.v0, t.v1)) = some (0x1423FF6D, 0x9216EF3A) := by decide +kernel

/-! ## Padding (section 2.7) -/

theorem test_pad_len : [0, 1, 7, 8, 9, 15, 16, 17].map padLen = [8, 7, 1, 8, 7, 1, 8, 7] := by decide
theorem test_pad_aligned :
    see (exec .pad (st 16 keyZ 8 hola)) (fun t => (memRead t.buf 0 16, t.len, t.status)) =
      some (hola ++ [8, 8, 8, 8, 8, 8, 8, 8], 16, 0) := by decide
theorem test_pad_no_room :
    see (exec .pad (st 16 keyZ 16 ramp)) (fun t => (memRead t.buf 0 16, t.len, t.status)) =
      some (ramp, 16, 3) := by decide
theorem test_unpad_whole_message :
    see (exec .unpad (st 16 keyZ 8 [8, 8, 8, 8, 8, 8, 8, 8])) (fun t => (memRead t.buf 0 8, t.len, t.status)) =
      some ([8, 8, 8, 8, 8, 8, 8, 8], 0, 0) := by decide
theorem test_unpad_inconsistent :
    see (exec .unpad (st 16 keyZ 8 [0x41, 0x41, 0x41, 0x41, 0x41, 3, 2, 3])) (fun t => (t.len, t.status)) =
      some (8, 2) := by decide
theorem test_unpad_absent_zero_oversized :
    (unpadCheck [], unpadCheck [0x41, 0], unpadCheck [0x41, 9], unpadCheck [5, 5, 5]) =
      (.invalid, .invalid, .invalid, .invalid) := by decide
theorem test_unpad_any_length : unpadCheck [0x41, 2, 2] = .valid 2 := by decide

/-! ## The pipeline (section 2.8) -/

theorem test_encm :
    see (exec .encm (st 32 keyS 8 hola)) (fun t => (memRead t.buf 0 16, t.len, t.status)) =
      some (holaCipher, 16, 0) := by decide
theorem test_encm_no_room :
    see (exec .encm (st 16 keyS 16 ramp)) (fun t => (memRead t.buf 0 16, t.len, t.status)) =
      some (ramp, 16, 3) := by decide
theorem test_decm :
    see (exec .decm (st 32 keyS 16 holaCipher)) (fun t => (memRead t.buf 0 16, t.len, t.status)) =
      some (hola ++ [8, 8, 8, 8, 8, 8, 8, 8], 8, 0) := by decide +kernel
theorem test_decm_wrong_key :
    see (exec .decm (st 32 keyZ 16 holaCipher)) (fun t => (memRead t.buf 0 16, t.len, t.status)) =
      some ([0x57, 0x55, 0x37, 0xB6, 0xAA, 0xA3, 0x80, 0x18, 0x30, 0xB1, 0x8C, 0x47, 0x9E, 0xA9, 0xB5, 0x28],
        16, 2) := by decide +kernel

/-! ## Host transactions (section 2.9), the step and reset -/

theorem test_write_status_ignored :
    see (transact (.regWrite 8 0) { State.reset with status := 2 }) (fun t => t.status) = some 2 := by decide
theorem test_read_cmd_is_zero : see (transact (.regRead 7) State.reset) (fun t => t.reads) = some [.word 0] := by
  decide
theorem test_write_len_any_value :
    see (transact (.regWrite 6 0xFFFFFFFF) State.reset) (fun t => t.len) = some 0xFFFFFFFF := by decide
theorem test_write_k2 :
    see (transact (.regWrite 2 0xFEDCBA98) State.reset) (fun t => t.k.k2) = some 0xFEDCBA98 := by decide
theorem test_buf_write_keeps_len :
    see (transact (.bufWrite 12 0xAA) (st 16 keyZ 8 ramp)) (fun t => (Memory.read t.buf 12, t.len)) =
      some (0xAA, 8) := by decide
theorem test_buf_read_last :
    see (transact (.bufRead 15) (st 16 keyZ 8 ramp)) (fun t => t.reads) = some [.byte 0x0F] := by decide
theorem test_step_from_reset_runs_encm :
    see (step (State.reset.withFetchWord 32 7)) (fun t => (t.len, t.pending)) = some (8, []) := by decide
theorem test_step_reserved_word :
    see (step (State.reset.withFetchWord 32 9)) (fun t => (t.status, t.pending)) = some (4, []) := by decide
theorem test_step_without_event : see (step State.reset) (fun t => decide (t = State.reset)) = some true := by decide
theorem test_reset_event :
    see (step { State.reset with len := 5, status := 2, pending := [.reset] })
      (fun t => (t.len, t.status, t.resets)) = some (0, 0, 1) := by decide
theorem test_script_btw : expandLine (.cmd (.btw 8)) = [.regWrite 7 0x00000801] := by decide
theorem test_script_ldmsg :
    expandLine (.ldmsg [0x41, 0x42]) = [.bufWrite 0 0x41, .bufWrite 1 0x42, .regWrite 6 2] := by decide

theorem test_script_ascii : asciiBytes ['H', 'O', 'L', 'A', '1', '2', '3', '4'] = hola := by decide

/-! ## Witnesses: the hypotheses of each statement can be met, at the ends of their ranges -/

theorem witness_DecodeOfEncodeIsTheCommand :
    (Instr.btw 0).wellFormed = true ∧ (Instr.wtb (2 ^ 24 - 1)).wellFormed = true ∧ Instr.decm.wellFormed = true := by
  decide
theorem witness_EncodeOfDecodeIsTheWord : decode 0xFFFFFF01 = .command (.btw (2 ^ 24 - 1)) := by decide
theorem witness_DecodeFollowsTheDecodingRule :
    (0xFFFFFF01 : Word).toNat % 256 = 1 ∧ (0x00000002 : Word).toNat % 256 = 2 ∧
    (0x00000003 : Word).toNat / 256 = 0 ∧ (0x00000008 : Word).toNat % 256 = 8 ∧
    (0x00000108 : Word).toNat / 256 ≠ 0 ∧ (0x00000009 : Word).toNat % 256 = 9 := by decide
theorem witness_ReservedWordsRaiseIllegalCmd :
    (0xFFFFFF00 : Word).toNat % 256 = 0 ∧ (0x00000009 : Word).toNat % 256 = 9 ∧
    (0x000000FF : Word).toNat % 256 = 255 ∧ (0x00000103 : Word).toNat / 256 = 1 ∧
    (0x00000008 : Word).toNat / 256 = 0 := by decide
theorem witness_StepRunsTheDecodedCommand :
    (State.reset.withFetchWord 32 8).pending = .txn (.regWrite 7 8) :: [] ∧ decode 8 = .command .decm := by decide
theorem witness_StepIssuesTheNextEvent :
    State.reset.pending = [] ∧
    { State.reset with pending := [.txn (.regRead 8)] }.pending = .txn (.regRead 8) :: [] ∧
    { State.reset with pending := [.reset] }.pending = .reset :: [] := by decide
theorem witness_RegWriteStoresOrRunsTheCommand :
    decode 0x00000001 = .command (.btw 0) ∧ decode 0x00000000 = .reserved .opZero := by decide
theorem witness_TransactionsOutsideTheMapAreRefused : 8 < 9 ∧ State.reset.cfg.cap ≤ 32 := by decide
theorem witness_BufWriteChangesOneByte : Memory.wf (st 16 keyZ 0 ramp).buf ∧ 15 < (st 16 keyZ 0 ramp).cfg.cap := by
  decide
theorem witness_BufReadReturnsTheByte : 31 < State.reset.cfg.cap := by decide
theorem witness_EveryLegalTransactionSucceeds :
    Txn.legal 32 (.regWrite 8 0) = true ∧ Txn.legal 32 (.regRead 8) = true ∧
    Txn.legal 32 (.bufWrite 31 0) = true ∧ Txn.legal 32 (.bufRead 31) = true := by decide
theorem witness_StepStopsOnlyOutsideTheMap :
    { State.reset with pending := [.txn (.bufRead 32)] }.pending = .txn (.bufRead 32) :: [] ∧
    Txn.legal State.reset.cfg.cap (.bufRead 32) = false ∧
    see (step { State.reset with pending := [.txn (.bufRead 32)] }) (fun t => t.len) = none := by decide
theorem witness_StatusChangesOnlyByCommandOrReset :
    perform (.txn (.regWrite 7 9)) State.reset = .next { State.reset with status := 4 } ∧
    { State.reset with status := 4 }.status ≠ State.reset.status := ⟨rfl, by decide⟩
theorem witness_KeyChangesOnlyByHostWriteOrReset :
    ∃ t, step { State.reset with pending := [.txn (.regWrite 3 1)] } = .next t ∧ t.k ≠ State.reset.k :=
  ⟨_, rfl, by decide⟩

/-- A state that meets the invariant, with the message "HOLA1234" and key `keyS`. -/
def sHola : State := st 32 keyS 8 hola

/-- A state that meets the invariant, whose message has CAP - 1 bytes (nothing listed: all zeros). -/
def sLongest : State := st 32 keyS 31 []

theorem inv_sHola : sHola.Inv := ⟨by decide, by decide, by decide⟩
theorem inv_sLongest : sLongest.Inv := ⟨by decide, by decide, by decide⟩

theorem witness_CommandsWriteOnlyTheirState :
    Memory.wf sHola.buf ∧ (∃ t, exec (.btw 24) sHola = .next t) ∧ (∃ t, exec (.wtb 24) sHola = .next t) ∧
    (∃ t, exec .encb sHola = .next t) ∧ (∃ t, exec .decb sHola = .next t) ∧ (∃ t, exec .pad sHola = .next t) ∧
    (∃ t, exec .unpad sHola = .next t) ∧ (∃ t, exec .encm sHola = .next t) ∧ ∃ t, exec .decm sHola = .next t :=
  have h : ∀ i : Instr, (see (exec i sHola) fun _ => ()).isSome = true → ∃ t, exec i sHola = .next t := by
    intro i hi
    cases he : exec i sHola with
    | next t => exact ⟨t, rfl⟩
    | fault r => rw [he] at hi; cases hi
    | refused r => rw [he] at hi; cases hi
  ⟨by decide, h _ (by decide +kernel), h _ (by decide +kernel), h _ (by decide +kernel), h _ (by decide +kernel), h _ (by decide +kernel), h _ (by decide +kernel),
    h _ (by decide +kernel), h _ (by decide +kernel)⟩
theorem witness_ErrorsChangeOnlyStatus :
    exec .decm (st 32 keyS 7 hola) = .next { st 32 keyS 7 hola with status := 1 } ∧
    { st 32 keyS 7 hola with status := 1 }.status ≠ 0 ∧
    ¬(Instr.decm = .decm ∧ { st 32 keyS 7 hola with status := 1 }.status = 2) := ⟨rfl, by decide, by decide⟩
theorem witness_MessageCommandsIgnoreTheBlock :
    Instr.decm = .pad ∨ Instr.decm = .unpad ∨ Instr.decm = .encm ∨ Instr.decm = .decm := by decide
theorem witness_BlockCommandsIgnoreTheLength :
    (∃ off, Instr.wtb 3 = .btw off ∨ Instr.wtb 3 = .wtb off) ∨ Instr.wtb 3 = .encb ∨ Instr.wtb 3 = .decb :=
  .inl ⟨3, .inr rfl⟩
theorem witness_CodecAndPaddingIgnoreTheKeyCipherIgnoresTheBuffer :
    ((∃ off, Instr.btw 3 = .btw off ∨ Instr.btw 3 = .wtb off) ∨ Instr.btw 3 = .pad ∨ Instr.btw 3 = .unpad) ∧
    (Instr.decb = .encb ∨ Instr.decb = .decb) := ⟨.inl ⟨3, .inl rfl⟩, .inr rfl⟩
theorem witness_BtwLoadsTheBlock : 0 + 8 ≤ sHola.cfg.cap ∧ 24 + 8 ≤ sHola.cfg.cap := by decide
theorem witness_WtbStoresTheBlock : Memory.wf sHola.buf ∧ 0 + 8 ≤ sHola.cfg.cap ∧ 24 + 8 ≤ sHola.cfg.cap := by decide
theorem witness_CodecCommandsUndoEachOther : sHola.Inv ∧ 24 + 8 ≤ sHola.cfg.cap := ⟨inv_sHola, by decide⟩
theorem witness_WordArithmeticWraps : 0 ≤ 31 ∧ 31 ≤ 31 := by decide
theorem witness_UnpadCheckAcceptsExactlyPadding :
    1 ≤ 8 ∧ 8 ≤ 8 ∧ 8 ≤ (List.replicate 8 (8 : Byte)).length ∧
    ∀ i, (List.replicate 8 (8 : Byte)).length - 8 ≤ i → i < (List.replicate 8 (8 : Byte)).length →
      (List.replicate 8 (8 : Byte))[i]? = some (BitVec.ofNat 8 8) :=
  have h : ∀ i, i < 8 → (List.replicate 8 (8 : Byte))[i]? = some (BitVec.ofNat 8 8) := by decide
  ⟨by decide, by decide, by decide, fun i _ hi => h i hi⟩
theorem witness_PadAppendsToTheMessage :
    (sHola.Inv ∧ sHola.len.toNat + padLen sHola.len.toNat ≤ sHola.cfg.cap) ∧
    (sLongest.Inv ∧ sLongest.len.toNat + padLen sLongest.len.toNat ≤ sLongest.cfg.cap) :=
  ⟨⟨inv_sHola, by decide⟩, ⟨inv_sLongest, by decide⟩⟩
theorem witness_CapacityErrorsChangeNothing :
    sHola.cfg.cap < 25 + 8 ∧ (st 32 keyS 33 []).cfg.cap < (st 32 keyS 33 []).len.toNat ∧
    (st 32 keyS 32 []).len.toNat ≤ (st 32 keyS 32 []).cfg.cap ∧
    (st 32 keyS 32 []).cfg.cap < (st 32 keyS 32 []).len.toNat + padLen (st 32 keyS 32 []).len.toNat := by decide
theorem witness_LongestMessageIsOneBelowCapacity : sLongest.cfg.WF ∧ Config.WF ⟨8⟩ ∧ Config.WF ⟨2 ^ 24⟩ := by decide

/-- A message that is nothing but padding. -/
def sPadding : State := st 8 keyZ 8 [8, 8, 8, 8, 8, 8, 8, 8]

theorem witness_UnpadRemovesThePadding :
    sPadding.len.toNat ≤ sPadding.cfg.cap ∧ 8 ≤ sPadding.len.toNat ∧
    ∀ a, sPadding.len.toNat - 8 ≤ a → a < sPadding.len.toNat → Memory.read sPadding.buf a = BitVec.ofNat 8 8 :=
  have h : ∀ a, a < sPadding.len.toNat → Memory.read sPadding.buf a = BitVec.ofNat 8 8 := by decide
  ⟨by decide, by decide, fun a _ ha => h a ha⟩
theorem witness_UnpadRemovesThePadding_one :
    (st 8 keyZ 1 [1]).len.toNat ≤ (st 8 keyZ 1 [1]).cfg.cap ∧ 1 ≤ (st 8 keyZ 1 [1]).len.toNat ∧
    ∀ a, (st 8 keyZ 1 [1]).len.toNat - 1 ≤ a → a < (st 8 keyZ 1 [1]).len.toNat →
      Memory.read (st 8 keyZ 1 [1]).buf a = BitVec.ofNat 8 1 :=
  have h : ∀ a, a < (st 8 keyZ 1 [1]).len.toNat → Memory.read (st 8 keyZ 1 [1]).buf a = BitVec.ofNat 8 1 := by decide
  ⟨by decide, by decide, fun a _ ha => h a ha⟩
theorem witness_UnpadReportsInvalidPadding :
    (st 8 keyZ 0 []).len.toNat = 0 ∧ (Memory.read (st 8 keyZ 2 [0x41, 0]).buf (2 - 1)).toNat = 0 ∧
    8 < (Memory.read (st 8 keyZ 2 [0x41, 9]).buf (2 - 1)).toNat ∧
    3 < (Memory.read (st 8 keyZ 3 [5, 5, 5]).buf (3 - 1)).toNat ∧
    (∃ a, 3 - 2 ≤ a ∧ a < 3 ∧ (Memory.read (st 8 keyZ 3 [2, 3, 2]).buf a).toNat ≠ 2) ∧
    (st 8 keyZ 3 [2, 3, 2]).len.toNat ≤ (st 8 keyZ 3 [2, 3, 2]).cfg.cap :=
  ⟨by decide, by decide, by decide, by decide, ⟨1, by decide⟩, by decide⟩
theorem witness_PadThenUnpadRestoresTheMessage : sLongest.Inv ∧ sLongest.len.toNat < sLongest.cfg.cap :=
  ⟨inv_sLongest, by decide⟩
theorem witness_BlockLoopsTransformEachBlock :
    Memory.wf sHola.buf ∧ 16 % 8 = 0 ∧ 1 < 16 / 8 ∧ 16 ≤ 16 := by decide
theorem witness_BlockOrderCannotBeObserved : Memory.wf sHola.buf ∧ 0 ≠ 1 := by decide
theorem witness_EncmEncryptsThePaddedMessage :
    (sHola.Inv ∧ sHola.len.toNat + padLen sHola.len.toNat ≤ sHola.cfg.cap ∧
      1 < (sHola.len.toNat + padLen sHola.len.toNat) / 8) ∧
    (sLongest.Inv ∧ sLongest.len.toNat + padLen sLongest.len.toNat ≤ sLongest.cfg.cap) :=
  ⟨⟨inv_sHola, by decide, by decide⟩, ⟨inv_sLongest, by decide⟩⟩
theorem witness_EncmEqualsEncryptingByHand : sLongest.cfg.WF ∧ sLongest.len.toNat < sLongest.cfg.cap := by decide

/-- The ciphertext of the empty message under `keyS` (section 2.8). -/
def sEmptyCipher : State := st 32 keyS 8 [0xCE, 0x1F, 0xFE, 0xBD, 0x32, 0x6D, 0x7B, 0xE3]

theorem witness_DecmRecoversTheMessage :
    sEmptyCipher.len.toNat ≤ sEmptyCipher.cfg.cap ∧ sEmptyCipher.len.toNat % 8 = 0 ∧ 8 ≤ sEmptyCipher.len.toNat ∧
    ∀ a, sEmptyCipher.len.toNat - 8 ≤ a → a < sEmptyCipher.len.toNat →
      Memory.read (decryptBlocks sEmptyCipher.k sEmptyCipher.len.toNat sEmptyCipher.buf) a = BitVec.ofNat 8 8 :=
  have h : ∀ a, a < sEmptyCipher.len.toNat →
      Memory.read (decryptBlocks sEmptyCipher.k sEmptyCipher.len.toNat sEmptyCipher.buf) a = BitVec.ofNat 8 8 := by
    decide +kernel
  ⟨by decide, by decide, by decide, fun a _ ha => h a ha⟩

/-- A ciphertext whose plaintext under `keyZ` is `bs`. -/
def sCipherOf (bs : List Byte) : State :=
  { st 32 keyZ 8 [] with buf := encryptBlocks keyZ 8 (memWrite [] 0 bs) }

/-- The last decrypted byte of a one-block ciphertext under `keyZ`. -/
def lastPlain (s : State) : Nat := (Memory.read (decryptBlocks s.k 8 s.buf) 7).toNat

theorem witness_DecmKeepsThePlaintextOnPaddingError :
    (st 32 keyZ 0 []).len.toNat = 0 ∧ lastPlain (sCipherOf [1, 1, 1, 1, 1, 1, 1, 0]) = 0 ∧
    8 < lastPlain (sCipherOf [1, 1, 1, 1, 1, 1, 1, 9]) ∧ lastPlain (sCipherOf [1, 1, 1, 1, 1, 1, 1, 2]) = 2 ∧
    (Memory.read (decryptBlocks keyZ 8 (sCipherOf [1, 1, 1, 1, 1, 1, 1, 2]).buf) 6).toNat ≠ 2 ∧
    (sCipherOf []).len.toNat ≤ (sCipherOf []).cfg.cap ∧ (sCipherOf []).len.toNat % 8 = 0 := by decide +kernel
theorem witness_DecmChecksTheAlignment :
    (st 32 keyS 7 hola).len.toNat ≤ (st 32 keyS 7 hola).cfg.cap ∧ (st 32 keyS 7 hola).len.toNat % 8 ≠ 0 := by decide
theorem witness_EncmThenDecmRestoresTheMessage :
    (sLongest.Inv ∧ sLongest.len.toNat ≤ sLongest.cfg.cap - 1) ∧ (sHola.Inv ∧ sHola.len.toNat ≤ sHola.cfg.cap - 1) :=
  ⟨⟨inv_sLongest, by decide⟩, ⟨inv_sHola, by decide⟩⟩
theorem witness_EveryStepKeepsTheInvariant :
    (sHola.withFetchWord 32 5).Inv ∧ ∃ t, step (sHola.withFetchWord 32 5) = .next t :=
  ⟨⟨inv_sHola.cfg, inv_sHola.buf, inv_sHola.status⟩, _, rfl⟩
theorem witness_BuffersThatReadAlikeAreEqual :
    Memory.wf [((3 : Nat), (1 : Byte))] ∧ Memory.wf (Memory.write [] 3 1) ∧
    ∀ a, Memory.read [((3 : Nat), (1 : Byte))] a = Memory.read (Memory.write [] 3 1) a :=
  ⟨by decide, by decide, fun _ => rfl⟩

end Sys2Proof.Tests
end

section
/-! The reset state and the reset event (R21, R140, R141): LEN and STATUS. -/

namespace Sys2Proof.Machine

@[simp] theorem State.reset_len : State.reset.len = 0 := rfl
@[simp] theorem State.reset_status : State.reset.status = 0 := rfl

/-- A reset event always completes, and what it leaves is `resetEngine` of the state (R140). -/
@[simp] theorem perform_reset (s : State) : perform .reset s = .next (resetEngine s) := rfl

/-- Settles O57: the reset state and the state any reset event leaves both hold LEN and STATUS 0 (R21). -/
theorem resetClearsLengthAndStatus : Obligations.ResetClearsLengthAndStatus :=
  ⟨State.reset_len, State.reset_status, fun s =>
    ⟨resetEngine s, perform_reset s, resetEngine_len s, resetEngine_status s⟩⟩

end Sys2Proof.Machine
end

section
/-! The host transactions (20_memory.md R31 to R36): one equation per case of each transaction, and from them what
BufWrite and RegWrite do and what is refused. -/

namespace Sys2Proof.Machine

/-- R34: BufWrite at an offset the buffer has. -/
theorem transact_bufWrite_of_lt {s : State} {a : Nat} (ha : a < s.cfg.cap) (b : Byte) :
    transact (.bufWrite a b) s = .next (setBuf (Memory.write s.buf a b) s) := if_pos ha

/-- R36: BufWrite at an offset the buffer does not have. -/
theorem transact_bufWrite_of_le {s : State} {a : Nat} (ha : s.cfg.cap ≤ a) (b : Byte) :
    transact (.bufWrite a b) s = .refused (.noSuchOffset a) := if_neg ha.not_gt

/-- R36: BufRead at an offset the buffer does not have. -/
theorem transact_bufRead_of_le {s : State} {a : Nat} (ha : s.cfg.cap ≤ a) :
    transact (.bufRead a) s = .refused (.noSuchOffset a) := if_neg ha.not_gt

/-- R32: a RegWrite to any register but CMD, by its number, is the register write and nothing more. -/
theorem transact_regWrite_number {r : Reg} (hr : r ≠ .cmd) (v : Word) (s : State) :
    transact (.regWrite r.number v) s = .next (writeReg s v r) := by
  cases r with
  | cmd => exact absurd rfl hr
  | _ => rfl

/-- R32: a RegWrite to CMD runs the word. -/
theorem transact_regWrite_cmd (v : Word) (s : State) : transact (.regWrite 7 v) s = runCommandWord v s := rfl

/-- R36: RegWrite to a register number above 8. -/
theorem transact_regWrite_of_gt {n : Nat} (hn : 8 < n) (v : Word) (s : State) :
    transact (.regWrite n v) s = .refused (.noSuchRegister n) := by
  simp only [transact, hostRegWrite, (Reg.ofNumber?_eq_none n).mpr hn]

/-- R36: RegRead of a register number above 8. -/
theorem transact_regRead_of_gt {n : Nat} (hn : 8 < n) (s : State) :
    transact (.regRead n) s = .refused (.noSuchRegister n) := by
  simp only [transact, hostRegRead, (Reg.ofNumber?_eq_none n).mpr hn]

/-- R32: a word that decodes to a command runs that command. -/
theorem runCommandWord_of_command {w : Word} {i : Instr} (h : decode w = .command i) (s : State) :
    runCommandWord w s = exec i s := by
  simp only [runCommandWord, h]

/-- R55, R125: a reserved word does nothing but raise ILLEGAL_CMD. -/
theorem runCommandWord_of_reserved {w : Word} {r : ReservedWord} (h : decode w = .reserved r) (s : State) :
    runCommandWord w s = .next (raise .illegalCmd s) := by
  simp only [runCommandWord, h]

/-- Settles O12: inside the capacity BufWrite is one store into the canonical buffer, so read-after-write gives
both the new byte and the frame. -/
theorem bufWriteChangesOneByte : Obligations.BufWriteChangesOneByte := by
  intro s a b hwf ha
  have hread := Memory.read_write hwf a b
  refine ⟨setBuf (Memory.write s.buf a b) s, transact_bufWrite_of_lt ha b, rfl, ?_, fun x hx => ?_⟩
  · rw [setBuf_buf, hread, if_pos rfl]
  · rw [setBuf_buf, hread, if_neg hx]

/-- Settles O9: every register but CMD by the register write, CMD by what its word decodes to. -/
theorem regWriteStoresOrRunsTheCommand : Obligations.RegWriteStoresOrRunsTheCommand := by
  intro s v
  have hstore (r : Reg) (hr : r ≠ .cmd) := transact_regWrite_number hr v s
  refine ⟨hstore .k0 nofun, hstore .k1 nofun, hstore .k2 nofun, hstore .k3 nofun, hstore .v0 nofun,
    hstore .v1 nofun, hstore .len nofun, fun i hi => ?_, fun r hr => ?_, hstore .status nofun⟩
  · rw [transact_regWrite_cmd, runCommandWord_of_command hi]
  · rw [transact_regWrite_cmd, runCommandWord_of_reserved hr]
    rfl

/-- Settles O11: register numbers above 8 and offsets from CAP on are refused by name. -/
theorem transactionsOutsideTheMapAreRefused : Obligations.TransactionsOutsideTheMapAreRefused :=
  ⟨fun s _ v hn => ⟨transact_regWrite_of_gt hn v s, transact_regRead_of_gt hn s⟩,
    fun _ _ b ha => ⟨transact_bufWrite_of_le ha b, transact_bufRead_of_le ha⟩⟩

end Sys2Proof.Machine
end

section
/-! The decoder of 30_encoding.md (R51 to R55): the two fields as numbers, the one equivalence that says which words
decode to a command, and from it the decoding rule, the opcode map and the reserved words. -/

namespace Sys2Proof

/-- R51: OP is the word mod 256. -/
theorem opField_eq_mod (w : Word) : opField w = w.toNat % 256 := by
  simp only [opField, BitVec.extractLsb'_toNat, Nat.shiftRight_zero, Nat.reducePow]

/-- R51: OFF is the word divided by 256. -/
theorem offField_eq_div (w : Word) : offField w = w.toNat / 256 := by
  have hdiv : w.toNat / 256 < 2 ^ 24 := by omega
  rw [offField, BitVec.extractLsb'_toNat, Nat.shiftRight_eq_div_pow]
  exact Nat.mod_eq_of_lt hdiv

/-- A CN word gives its command exactly when OFF is 0. -/
theorem withoutOperand_eq_command_iff (off : Nat) (i j : Instr) :
    withoutOperand off i = .command j ↔ i = j ∧ off = 0 := by
  unfold withoutOperand
  split <;> simp [*]

/-- R52, R54: a word decodes to a command exactly when its two fields are that command's. -/
theorem decode_eq_command_iff (w : Word) (i : Instr) :
    decode w = .command i ↔ w.toNat % 256 = opcodeOf i ∧ w.toNat / 256 = offsetOf i := by
  rw [← opField_eq_mod, ← offField_eq_div]
  constructor
  · intro h
    unfold decode at h
    split at h
    case h_1 | h_10 => cases h
    case h_2 hop | h_3 hop => cases h; exact ⟨hop, rfl⟩
    all_goals
      next hop =>
        obtain ⟨rfl, hoff⟩ := (withoutOperand_eq_command_iff _ _ _).mp h
        exact ⟨hop, hoff⟩
  · rintro ⟨hop, hoff⟩
    cases i <;> simp only [opcodeOf, offsetOf] at hop hoff <;> simp only [decode, hop, hoff, withoutOperand, if_true]

/-- R54: OP and OFF of the words that decode to some command. -/
theorem exists_decode_eq_command_iff (w : Word) :
    (∃ i, decode w = .command i) ↔
      w.toNat % 256 = 1 ∨ w.toNat % 256 = 2 ∨ 3 ≤ w.toNat % 256 ∧ w.toNat % 256 ≤ 8 ∧ w.toNat / 256 = 0 := by
  simp only [decode_eq_command_iff]
  constructor
  · rintro ⟨i, hop, hoff⟩
    cases i <;> simp only [opcodeOf, offsetOf] at hop hoff <;> omega
  · rintro (hop | hop | ⟨hlo, hhi, hoff⟩)
    · exact ⟨.btw _, hop, rfl⟩
    · exact ⟨.wtb _, hop, rfl⟩
    · have hop : w.toNat % 256 = 3 ∨ w.toNat % 256 = 4 ∨ w.toNat % 256 = 5 ∨ w.toNat % 256 = 6 ∨
          w.toNat % 256 = 7 ∨ w.toNat % 256 = 8 := by omega
      obtain hop | hop | hop | hop | hop | hop := hop
      · exact ⟨.encb, hop, hoff⟩
      · exact ⟨.decb, hop, hoff⟩
      · exact ⟨.pad, hop, hoff⟩
      · exact ⟨.unpad, hop, hoff⟩
      · exact ⟨.encm, hop, hoff⟩
      · exact ⟨.decm, hop, hoff⟩

/-- R54, R56: the reserved verdict is given exactly where no command is. -/
theorem exists_decode_eq_reserved_iff (w : Word) :
    (∃ r, decode w = .reserved r) ↔ ¬ ∃ i, decode w = .command i := by
  cases decode w <;> simp

/-- The mask of a CO row keeps OP. -/
theorem and_opMask_eq_iff (w : Word) {n : Nat} (hn : n < 256) :
    w &&& 0x000000FF = BitVec.ofNat 32 n ↔ w.toNat % 256 = n := by
  have hand : (w &&& 0x000000FF).toNat = w.toNat % 256 := Nat.and_two_pow_sub_one_eq_mod w.toNat 8
  rw [← BitVec.toNat_inj, hand, BitVec.toNat_ofNat, Nat.mod_eq_of_lt (show n < 2 ^ 32 by omega)]

/-- The mask of a CN row keeps the whole word, and its match is OP with OFF 0. -/
theorem and_fullMask_eq_iff (w : Word) {n : Nat} (hn : n < 256) :
    w &&& 0xFFFFFFFF = BitVec.ofNat 32 n ↔ w.toNat % 256 = n ∧ w.toNat / 256 = 0 := by
  have hand : w &&& 0xFFFFFFFF = w := BitVec.and_allOnes
  rw [hand, ← BitVec.toNat_inj, BitVec.toNat_ofNat, Nat.mod_eq_of_lt (show n < 2 ^ 32 by omega)]
  omega

/-- Settles O3: each branch of the rule names the two fields of its command; the last is where no command is. -/
theorem decodeFollowsTheDecodingRule : Obligations.DecodeFollowsTheDecodingRule := by
  intro w op off
  have command (i : Instr) (hop : op = opcodeOf i) (hoff : off = offsetOf i) : decode w = .command i :=
    (decode_eq_command_iff w i).mpr ⟨hop, hoff⟩
  split_ifs with hbtw hwtb hcn
  · exact command (.btw off) hbtw rfl
  · exact command (.wtb off) hwtb rfl
  · obtain ⟨-, -, hoff⟩ := hcn
    exact ⟨(command .encb · hoff), (command .decb · hoff), (command .pad · hoff), (command .unpad · hoff),
      (command .encm · hoff), (command .decm · hoff)⟩
  · rw [exists_decode_eq_reserved_iff, exists_decode_eq_command_iff]
    exact not_or.mpr ⟨hbtw, not_or.mpr ⟨hwtb, hcn⟩⟩

/-- Settles O4: a CO row fixes OP and leaves OFF free, a CN row fixes both fields. -/
theorem opcodeMapMatchesDecode : Obligations.OpcodeMapMatchesDecode := by
  intro w
  have fixed (i : Instr) (hop : opcodeOf i < 256) (hoff : offsetOf i = 0) :
      w &&& 0xFFFFFFFF = BitVec.ofNat 32 (opcodeOf i) ↔ decode w = .command i := by
    rw [and_fullMask_eq_iff w hop, decode_eq_command_iff, hoff]
  refine ⟨?_, ?_, fixed .encb (by decide) rfl, fixed .decb (by decide) rfl, fixed .pad (by decide) rfl,
    fixed .unpad (by decide) rfl, fixed .encm (by decide) rfl, fixed .decm (by decide) rfl⟩
  · simpa [decode_eq_command_iff, opcodeOf, offsetOf] using and_opMask_eq_iff w (n := 1) (by decide)
  · simpa [decode_eq_command_iff, opcodeOf, offsetOf] using and_opMask_eq_iff w (n := 2) (by decide)

end Sys2Proof

namespace Sys2Proof.Machine

/-- Settles O5: the three classes are the words that are no command, and a reserved word is answered by `raise`. -/
theorem reservedWordsRaiseIllegalCmd : Obligations.ReservedWordsRaiseIllegalCmd := by
  intro w op off
  split_ifs with hclass
  · have hnot : ¬ ∃ i, decode w = .command i := by
      rw [exists_decode_eq_command_iff]
      omega
    obtain ⟨r, hr⟩ := (exists_decode_eq_reserved_iff w).mpr hnot
    exact fun s => runCommandWord_of_reserved hr s
  · rw [exists_decode_eq_command_iff]
    omega

end Sys2Proof.Machine
end

section
/-! The word codec of 40_word_codec.md section 1 (R70 to R72): the number a packed word is, and the bytes it is packed
from. Both halves of the codec are the one packing of 4 bytes. -/

namespace Sys2Proof.Machine

/-- One more byte below, as a number. -/
theorem toNat_append_byte {n : Nat} (x : BitVec n) (b : Byte) : (x ++ b).toNat = x.toNat * 2 ^ 8 + b.toNat := by
  rw [BitVec.toNat_append, ← Nat.shiftLeft_add_eq_or_of_lt b.isLt, Nat.shiftLeft_eq]

/-- R70: a word packed from 4 bytes, as a number. -/
theorem toNat_joinBytes (b0 b1 b2 b3 : Byte) :
    (joinBytes b0 b1 b2 b3).toNat = b0.toNat * 2 ^ 24 + b1.toNat * 2 ^ 16 + b2.toNat * 2 ^ 8 + b3.toNat := by
  simp only [joinBytes, toNat_append_byte]
  omega

/-- R71: the byte of a word at bit `i`, as a number. -/
theorem toNat_extractByte (w : Word) (i : Nat) : (w.extractLsb' i 8).toNat = w.toNat / 2 ^ i % 256 := by
  rw [BitVec.extractLsb'_toNat, Nat.shiftRight_eq_div_pow]

/-- R72: the bytes of a packed word are those it was packed from. -/
theorem extractBytes_joinBytes (b0 b1 b2 b3 : Byte) :
    (joinBytes b0 b1 b2 b3).extractLsb' 24 8 = b0 ∧ (joinBytes b0 b1 b2 b3).extractLsb' 16 8 = b1 ∧
    (joinBytes b0 b1 b2 b3).extractLsb' 8 8 = b2 ∧ (joinBytes b0 b1 b2 b3).extractLsb' 0 8 = b3 := by
  simp only [← BitVec.toNat_inj, toNat_extractByte, toNat_joinBytes]
  omega

/-- R72: a word is packed from its own bytes. -/
theorem joinBytes_extractBytes (w : Word) :
    joinBytes (w.extractLsb' 24 8) (w.extractLsb' 16 8) (w.extractLsb' 8 8) (w.extractLsb' 0 8) = w := by
  simp only [← BitVec.toNat_inj, toNat_extractByte, toNat_joinBytes]
  omega

/-- R72: W2B undoes B2W. -/
theorem w2b_b2w (c : Chunk) : w2b (b2w c) = c := by
  obtain ⟨h0, h1, h2, h3⟩ := extractBytes_joinBytes c.b0 c.b1 c.b2 c.b3
  obtain ⟨h4, h5, h6, h7⟩ := extractBytes_joinBytes c.b4 c.b5 c.b6 c.b7
  simp only [w2b, b2w, h0, h1, h2, h3, h4, h5, h6, h7]

/-- R72: B2W undoes W2B. -/
theorem b2w_w2b (w : Word × Word) : b2w (w2b w) = w :=
  Prod.ext (joinBytes_extractBytes w.1) (joinBytes_extractBytes w.2)

/-- Settles O28: each composite is the identity on both halves. -/
theorem codecRoundTrips : Obligations.CodecRoundTrips :=
  ⟨w2b_b2w, fun w0 w1 => b2w_w2b (w0, w1)⟩

/-- Settles O26: both words are the packing of 4 bytes. -/
theorem bytesToWordsIsBigEndian : Obligations.BytesToWordsIsBigEndian :=
  fun c => ⟨toNat_joinBytes c.b0 c.b1 c.b2 c.b3, toNat_joinBytes c.b4 c.b5 c.b6 c.b7⟩

end Sys2Proof.Machine
end

section
/-! The cipher of 41_tea_core.md: the word operations and the mixing function as numbers (R81, R82), each round undoing
the other (R85), and by induction on the number of rounds the whole block cipher (R86 to R89). -/

namespace Sys2Proof.Machine

/-- R81: addition mod 2^32. -/
@[simp] theorem toNat_add32 (a b : Word) : (add32 a b).toNat = (a.toNat + b.toNat) % 2 ^ 32 := BitVec.toNat_add a b

/-- R81: subtraction mod 2^32, as the addition of the complement. -/
@[simp] theorem toNat_sub32 (a b : Word) : (sub32 a b).toNat = (a.toNat + (2 ^ 32 - b.toNat)) % 2 ^ 32 := by
  rw [sub32, BitVec.toNat_sub, Nat.add_comm]

/-- R81: the left shift multiplies mod 2^32. -/
@[simp] theorem toNat_shl32 (a : Word) (n : Nat) : (shl32 a n).toNat = a.toNat * 2 ^ n % 2 ^ 32 := by
  rw [shl32, BitVec.toNat_shiftLeft, Nat.shiftLeft_eq]

/-- R81: the right shift divides, rounding down. -/
@[simp] theorem toNat_shr32 (a : Word) (n : Nat) : (shr32 a n).toNat = a.toNat / 2 ^ n := by
  rw [shr32, BitVec.toNat_ushiftRight, Nat.shiftRight_eq_div_pow]

/-- R81: exclusive or, on numbers. -/
@[simp] theorem toNat_xor32 (a b : Word) : (xor32 a b).toNat = a.toNat ^^^ b.toNat := BitVec.toNat_xor a b

/-- R81: exclusive or, bit by bit. -/
theorem getLsbD_xor32_iff (a b : Word) (i : Nat) :
    (xor32 a b).getLsbD i = true ↔ a.getLsbD i ≠ b.getLsbD i := by
  rw [xor32, BitVec.getLsbD_xor, Bool.xor_iff_ne]

/-- Settles O32: the number of each word operation, and the bits of the exclusive or. -/
theorem wordArithmeticWraps : Obligations.WordArithmeticWraps :=
  fun a b n _ => ⟨toNat_add32 a b, toNat_sub32 a b, toNat_shl32 a n, toNat_shr32 a n,
    fun i _ => getLsbD_xor32_iff a b i⟩

/-- Settles O33: the shifts by 4 and 5 are the factor 16 and the divisor 32. -/
theorem mixingFunctionIsTheFormula : Obligations.MixingFunctionIsTheFormula := by
  intro x s ka kb
  simp only [mix, toNat_xor32, toNat_add32, toNat_shl32, toNat_shr32, Nat.reducePow]

/-- R81: a subtraction undoes the addition of the same word. -/
@[simp] theorem sub32_add32 (a b : Word) : sub32 (add32 a b) b = a := BitVec.add_sub_cancel a b

/-- R81: an addition undoes the subtraction of the same word. -/
@[simp] theorem add32_sub32 (a b : Word) : add32 (sub32 a b) b = a := BitVec.sub_add_cancel a b

/-- R85: the `v1` update is undone with the `v0` it was made with, then the `v0` update with the restored `v1`. -/
@[simp] theorem decRound_encRound (v : Word × Word) (s : Word) (k : Key) : decRound (encRound v s k) s k = v := by
  simp only [decRound, encRound, sub32_add32]

/-- The converse of R85. -/
@[simp] theorem encRound_decRound (v : Word × Word) (s : Word) (k : Key) : encRound (decRound v s k) s k = v := by
  simp only [decRound, encRound, add32_sub32]

/-- Settles O34: the formula is the definition, and each round undoes the other. -/
theorem roundsUndoEachOther : Obligations.RoundsUndoEachOther :=
  fun v s k => ⟨rfl, decRound_encRound v s k, encRound_decRound v s k⟩

/-- R83: `sum_i`, the `sum` of encryption round `i` (of decryption round `33 - i`); `sum_0` is where encryption
starts. -/
def roundSum (i : Nat) : Word := BitVec.ofNat 32 (i * 0x9E3779B9)

/-- R83: encryption reaches the next round's sum by adding DELTA. -/
theorem add32_roundSum (i : Nat) : add32 (roundSum i) delta = roundSum (i + 1) := by
  rw [roundSum, roundSum, Nat.succ_mul, BitVec.ofNat_add]
  rfl

/-- R83: decryption reaches the round before by subtracting DELTA. -/
theorem sub32_roundSum (i : Nat) : sub32 (roundSum (i + 1)) delta = roundSum i := by
  rw [← add32_roundSum, sub32_add32]

/-- R86: the last of `n + 1` encryption rounds that start from `sum_i`. -/
theorem encRounds_succ_last (k : Key) (n i : Nat) (v : Word × Word) :
    encRounds k (n + 1) (roundSum i) v = encRound (encRounds k n (roundSum i) v) (roundSum (i + n + 1)) k := by
  induction n generalizing i v with
  | zero => simp only [encRounds, add32_roundSum, Nat.add_zero]
  | succ n ih =>
    calc encRounds k (n + 2) (roundSum i) v
        = encRounds k (n + 1) (roundSum (i + 1)) (encRound v (roundSum (i + 1)) k) := by
          rw [encRounds, add32_roundSum]
      _ = encRound (encRounds k n (roundSum (i + 1)) (encRound v (roundSum (i + 1)) k))
            (roundSum (i + 1 + n + 1)) k := ih ..
      _ = encRound (encRounds k (n + 1) (roundSum i) v) (roundSum (i + (n + 1) + 1)) k := by
          rw [encRounds, add32_roundSum, Nat.add_right_comm i 1 n, Nat.add_assoc i n 1]

/-- R87: the first of `n + 1` decryption rounds that end with `sum_1`. -/
theorem decRounds_succ_roundSum (k : Key) (n : Nat) (v : Word × Word) :
    decRounds k (n + 1) (roundSum (n + 1)) v = decRounds k n (roundSum n) (decRound v (roundSum (n + 1)) k) := by
  rw [decRounds, sub32_roundSum]

/-- R88 for any number of rounds: the first decryption round undoes the last encryption round. -/
theorem decRounds_encRounds (k : Key) (n : Nat) (v : Word × Word) :
    decRounds k n (roundSum n) (encRounds k n (roundSum 0) v) = v := by
  induction n with
  | zero => rfl
  | succ n ih => rw [decRounds_succ_roundSum, encRounds_succ_last, Nat.zero_add, decRound_encRound, ih]

/-- The converse of R88 for any number of rounds: the last encryption round undoes the first decryption round. -/
theorem encRounds_decRounds (k : Key) (n : Nat) (v : Word × Word) :
    encRounds k n (roundSum 0) (decRounds k n (roundSum n) v) = v := by
  induction n generalizing v with
  | zero => rfl
  | succ n ih => rw [encRounds_succ_last, decRounds_succ_roundSum, ih, Nat.zero_add, encRound_decRound]

/-- R86: encryption is 32 rounds from `sum_0`. -/
theorem teaEncrypt_eq_encRounds (k : Key) (v : Word × Word) : teaEncrypt k v = encRounds k 32 (roundSum 0) v := rfl

/-- R80, R87: decryption is 32 rounds from `sum_32`, the constant it starts with. -/
theorem teaDecrypt_eq_decRounds (k : Key) (v : Word × Word) : teaDecrypt k v = decRounds k 32 (roundSum 32) v := by
  have hstart : decryptStart = roundSum 32 := by decide
  rw [teaDecrypt, hstart, rounds]

/-- R88. -/
@[simp] theorem teaDecrypt_teaEncrypt (k : Key) (v : Word × Word) : teaDecrypt k (teaEncrypt k v) = v := by
  rw [teaDecrypt_eq_decRounds, teaEncrypt_eq_encRounds, decRounds_encRounds]

/-- The converse of R88. -/
@[simp] theorem teaEncrypt_teaDecrypt (k : Key) (v : Word × Word) : teaEncrypt k (teaDecrypt k v) = v := by
  rw [teaDecrypt_eq_decRounds, teaEncrypt_eq_encRounds, encRounds_decRounds]

/-- Settles O36: 32 rounds of each undo 32 rounds of the other. -/
theorem blockCipherRoundTrips : Obligations.BlockCipherRoundTrips :=
  fun k v => ⟨teaDecrypt_teaEncrypt k v, teaEncrypt_teaDecrypt k v⟩

/-- Settles O37: each function is the two-sided inverse of the other. -/
theorem blockCipherIsABijection : Obligations.BlockCipherIsABijection :=
  fun k =>
    ⟨Function.bijective_iff_has_inverse.mpr ⟨teaDecrypt k, teaDecrypt_teaEncrypt k, teaEncrypt_teaDecrypt k⟩,
      Function.bijective_iff_has_inverse.mpr ⟨teaEncrypt k, teaEncrypt_teaDecrypt k, teaDecrypt_teaEncrypt k⟩⟩

end Sys2Proof.Machine
end

section
/-! The padding engine of 42_padding.md (R100, R101, R103): the bounds and the sum of PadLen, the length of Pad, and
UnpadCheck as one equivalence: it is valid exactly on the lists that end in a padding of 1 to 8 bytes. -/

namespace Sys2Proof.Machine

/-- R100: PadLen of a whole number of blocks is one more block. -/
theorem padLen_of_mod_eq_zero {n : Nat} (hn : n % 8 = 0) : padLen n = 8 := if_pos hn

/-- R100: PadLen of any other length is what the last block lacks. -/
theorem padLen_of_mod_ne_zero {n : Nat} (hn : n % 8 ≠ 0) : padLen n = 8 - n % 8 := if_neg hn

/-- R100: a padded message ends where the block that follows its last full block ends. -/
theorem add_padLen (n : Nat) : n + padLen n = 8 * (n / 8 + 1) := by
  by_cases hn : n % 8 = 0
  · rw [padLen_of_mod_eq_zero hn]
    omega
  · rw [padLen_of_mod_ne_zero hn]
    omega

/-- R100: there is always a padding byte. -/
theorem one_le_padLen (n : Nat) : 1 ≤ padLen n := by
  have hsum := add_padLen n
  omega

/-- R100: a padding is at most one block. -/
theorem padLen_le (n : Nat) : padLen n ≤ 8 := by
  have hsum := add_padLen n
  omega

/-- Settles O40: the two rows of the table are the definition's branches, the rest follows from the sum. -/
theorem padLenReachesTheNextBlock : Obligations.PadLenReachesTheNextBlock := by
  intro n
  have hsum := add_padLen n
  exact ⟨padLen_of_mod_eq_zero, padLen_of_mod_ne_zero, one_le_padLen n, padLen_le n, by omega, hsum⟩

@[simp] theorem length_padBytes (p : Nat) : (padBytes p).length = p := List.length_replicate

/-- R101: the length of a padded message. -/
@[simp] theorem length_pad (m : List Byte) : (pad m).length = m.length + padLen m.length := by
  rw [pad, List.length_append, length_padBytes]

/-- Settles O41: the list is the definition, and its length is the message's plus PadLen. -/
theorem padAppendsThePadLength : Obligations.PadAppendsThePadLength := by
  intro m p
  have hsum : m.length + p = 8 * (m.length / 8 + 1) := add_padLen m.length
  have hlen : (pad m).length = m.length + p := length_pad m
  exact ⟨rfl, by omega, by omega, by omega, List.take_left⟩

/-- The number of a pad length's byte: 1 to 8 stay as they are. -/
theorem toNat_padByte {p : Nat} (hp : p ≤ 8) : (BitVec.ofNat 8 p).toNat = p :=
  Nat.mod_eq_of_lt (by omega)

/-- R103: a list that ends in `p` bytes of value `p`, 1 to 8 of them, is valid with this `p`. -/
theorem unpadCheck_append_padBytes (m : List Byte) {p : Nat} (hpos : 1 ≤ p) (hle : p ≤ 8) :
    unpadCheck (m ++ padBytes p) = .valid p := by
  have hlast : (m ++ padBytes p).getLast? = some (BitVec.ofNat 8 p) := by
    rw [padBytes, List.getLast?_append, List.getLast?_replicate, if_neg (by omega), Option.some_or]
  have hdrop : (m ++ padBytes p).drop ((m ++ padBytes p).length - p) = padBytes p := by
    rw [List.length_append, length_padBytes, Nat.add_sub_cancel, List.drop_left]
  have hall : (padBytes p).all (fun b => b == BitVec.ofNat 8 p) = true := by
    simp [padBytes]
  have hsize : ¬(p = 0 ∨ 8 < p) := by omega
  have henough : ¬(m ++ padBytes p).length < p := by simp
  simp only [unpadCheck, hlast, toNat_padByte hle, if_neg hsize, if_neg henough, hdrop, hall, if_true]

/-- R103: where UnpadCheck is valid, the last byte `p` passed all four checks, so the last `p` bytes are the padding. -/
theorem padBytes_suffix_of_unpadCheck {bs : List Byte} {p : Nat} (h : unpadCheck bs = .valid p) :
    1 ≤ p ∧ p ≤ 8 ∧ padBytes p <:+ bs := by
  simp only [unpadCheck, blockSize] at h
  split at h
  next => cases h
  next last _ =>
    split_ifs at h with hsize henough hall
    cases h
    have hdrop : bs.drop (bs.length - last.toNat) = padBytes last.toNat := by
      rw [padBytes, BitVec.ofNat_toNat, BitVec.setWidth_eq, List.eq_replicate_iff, List.length_drop]
      exact ⟨by omega, fun b hb => eq_of_beq (List.all_eq_true.mp hall b hb)⟩
    exact ⟨by omega, by omega, hdrop ▸ List.drop_suffix _ bs⟩

/-- R103: UnpadCheck is valid exactly on the lists that end in a padding of 1 to 8 bytes. -/
theorem unpadCheck_eq_valid_iff (bs : List Byte) (p : Nat) :
    unpadCheck bs = .valid p ↔ 1 ≤ p ∧ p ≤ 8 ∧ padBytes p <:+ bs := by
  refine ⟨padBytes_suffix_of_unpadCheck, ?_⟩
  rintro ⟨hpos, hle, m, rfl⟩
  exact unpadCheck_append_padBytes m hpos hle

/-- To end in the padding of `p` bytes, byte by byte. -/
theorem padBytes_suffix_iff (bs : List Byte) (p : Nat) :
    padBytes p <:+ bs ↔
      p ≤ bs.length ∧ ∀ i, bs.length - p ≤ i → i < bs.length → bs[i]? = some (BitVec.ofNat 8 p) := by
  simp only [List.suffix_iff_getElem?, padBytes, List.getElem_replicate, List.length_replicate]
  refine and_congr_right fun hp => ⟨fun h i hlo hhi => ?_, fun h i hi => ?_⟩
  · have hidx : i - (bs.length - p) + bs.length - p = i := by omega
    rw [← h (i - (bs.length - p)) (by omega), hidx]
  · exact h _ (by omega) (by omega)

/-- R103: UnpadCheck accepts what Pad made. -/
@[simp] theorem unpadCheck_pad (m : List Byte) : unpadCheck (pad m) = .valid (padLen m.length) :=
  unpadCheck_append_padBytes m (one_le_padLen _) (padLen_le _)

/-- Settles O42: valid is to end in the padding, read byte by byte, and Pad puts the padding there. -/
theorem unpadCheckAcceptsExactlyPadding : Obligations.UnpadCheckAcceptsExactlyPadding := by
  refine ⟨fun bs p => ?_, unpadCheck_pad⟩
  rw [unpadCheck_eq_valid_iff, padBytes_suffix_iff]

end Sys2Proof.Machine
end

section
/-! The message pipeline of 43_pipeline.md (R110 to R112, R114): what a block loop leaves in each of its blocks, the
loop that undoes another one, the padded message as a list, and the OK outcomes of ENCM and DECM, one equation each. -/

namespace Sys2Proof.Machine

/-- A byte of an 8-byte read is the byte at its offset. -/
theorem getElem_toList_readChunk (m : List Host.Cell) (a : Nat) {i : Nat} (hi : i < (readChunk m a).toList.length) :
    (readChunk m a).toList[i] = Memory.read m (a + i) :=
  getElem_memRead m a 8 i hi

/-- Where all 8 bytes read alike as a block, each of them reads alike. -/
theorem read_eq_of_readChunk_eq {m m' : List Host.Cell} {a : Nat} (h : readChunk m a = readChunk m' a) {i : Nat}
    (hi : i < 8) : Memory.read m (a + i) = Memory.read m' (a + i) := by
  rw [← getElem_toList_readChunk m a hi, ← getElem_toList_readChunk m' a hi]
  exact List.getElem_of_eq (congrArg Chunk.toList h) hi

/-- R110: the block loop puts each of its blocks, transformed, where it was. -/
theorem readChunk_transformBlocks (f : Word × Word → Word × Word) (count j : Nat) {m : List Host.Cell}
    (h : Memory.wf m) {i : Nat} (hlo : j ≤ i) (hhi : i < j + count) :
    readChunk (transformBlocks f count j m) (8 * i) = w2b (f (b2w (readChunk m (8 * i)))) := by
  induction count generalizing j m with
  | zero => omega
  | succ count ih =>
    have hw := wf_transformBlock f h (8 * j)
    rw [transformBlocks_succ]
    rcases hlo.eq_or_lt with rfl | hlt
    · -- the first block: the rest of the loop does not touch it
      rw [← readChunk_transformBlock f h]
      exact readChunk_congr fun x hx => read_transformBlocks_outside f count (j + 1) hw (.inl (by omega))
    · -- a later block: the first pass did not touch it
      have hfirst : readChunk (transformBlock f m (8 * j)) (8 * i) = readChunk m (8 * i) :=
        readChunk_congr fun x hx => read_transformBlock_outside f h (.inr (by omega))
      rw [ih (j + 1) hw hlt (by omega), hfirst]

/-- A block loop whose function undoes that of the loop before it restores every byte. -/
theorem read_transformBlocks_transformBlocks {f g : Word × Word → Word × Word} (hgf : ∀ v, g (f v) = v)
    (count : Nat) {m : List Host.Cell} (h : Memory.wf m) (a : Nat) :
    Memory.read (transformBlocks g count 0 (transformBlocks f count 0 m)) a = Memory.read m a := by
  have hw := wf_transformBlocks f count 0 h
  by_cases ha : a < 8 * count
  · have hblock : readChunk (transformBlocks g count 0 (transformBlocks f count 0 m)) (8 * (a / 8)) =
        readChunk m (8 * (a / 8)) := by
      rw [readChunk_transformBlocks g count 0 hw (by omega) (by omega),
        readChunk_transformBlocks f count 0 h (by omega) (by omega), b2w_w2b, hgf, w2b_b2w]
    have hbyte := read_eq_of_readChunk_eq hblock (Nat.mod_lt a (by omega))
    rwa [Nat.div_add_mod] at hbyte
  · rw [read_transformBlocks_outside g count 0 hw (.inr (by omega)),
      read_transformBlocks_outside f count 0 h (.inr (by omega))]

/-- R113: DecryptBlocks restores every byte that EncryptBlocks with the same key changed. -/
theorem read_decryptBlocks_encryptBlocks (k : Key) (n : Nat) {m : List Host.Cell} (h : Memory.wf m) (a : Nat) :
    Memory.read (decryptBlocks k n (encryptBlocks k n m)) a = Memory.read m a :=
  read_transformBlocks_transformBlocks (teaDecrypt_teaEncrypt k) (n / blockSize) h a

/-- MemWrite behind the first `n` bytes appends to them. -/
theorem memRead_memWrite_append {m : List Host.Cell} (h : Memory.wf m) (n : Nat) (bs : List Byte) :
    memRead (memWrite m n bs) 0 (n + bs.length) = memRead m 0 n ++ bs := by
  refine List.ext_getElem (by simp) fun i hi hi' => ?_
  rw [getElem_memRead, Nat.zero_add]
  by_cases hin : i < n
  · rw [read_memWrite_outside h bs (.inl hin), List.getElem_append_left (by simpa using hin), getElem_memRead,
      Nat.zero_add]
  · obtain ⟨x, rfl⟩ := Nat.exists_eq_add_of_le (Nat.le_of_not_lt hin)
    have hx : x < bs.length := by simpa using hi
    rw [read_memWrite_inside h bs hx, List.getElem_append_right (by simp)]
    simp

/-- R104: the store whose first `n` bytes are followed by their padding, as PAD and ENCM write it. -/
def paddedBuf (m : List Host.Cell) (n : Nat) : List Host.Cell := memWrite m n (padBytes (padLen n))

theorem wf_paddedBuf {m : List Host.Cell} (h : Memory.wf m) (n : Nat) : Memory.wf (paddedBuf m n) :=
  wf_memWrite h n _

/-- The padding leaves the message alone. -/
theorem read_paddedBuf_of_lt {m : List Host.Cell} (h : Memory.wf m) {n a : Nat} (ha : a < n) :
    Memory.read (paddedBuf m n) a = Memory.read m a :=
  read_memWrite_outside h _ (.inl ha)

/-- R101: every padding byte is the number of padding bytes. -/
theorem read_paddedBuf_padding {m : List Host.Cell} (h : Memory.wf m) {n a : Nat} (hlo : n ≤ a)
    (hhi : a < n + padLen n) : Memory.read (paddedBuf m n) a = BitVec.ofNat 8 (padLen n) := by
  obtain ⟨i, rfl⟩ := Nat.exists_eq_add_of_le hlo
  have hi : i < (padBytes (padLen n)).length := by
    rw [length_padBytes]
    omega
  rw [paddedBuf, read_memWrite_inside h _ hi]
  exact List.getElem_replicate _

/-- R101, R104: the padded store holds Pad of the message. -/
theorem memRead_paddedBuf {m : List Host.Cell} (h : Memory.wf m) (n : Nat) :
    memRead (paddedBuf m n) 0 (n + padLen n) = pad (memRead m 0 n) := by
  have happend := memRead_memWrite_append h n (padBytes (padLen n))
  rw [length_padBytes] at happend
  rw [paddedBuf, happend, pad, length_memRead]

/-- R7: a message below the capacity has room for its padding. -/
theorem add_padLen_le_cap {c : Config} (hc : c.WF) {n : Nat} (hn : n ≤ c.cap - 1) : n + padLen n ≤ c.cap := by
  obtain ⟨hmod, hmin, -⟩ := hc
  have hsum := add_padLen n
  omega

/-- R111: the OK outcome of ENCM. -/
theorem exec_encm_of_fits {s : State} {n : Nat} (hn : s.len.toNat = n) (hfit : n + padLen n ≤ s.cfg.cap) :
    exec .encm s =
      .next (done (setLen (n + padLen n) (setBuf (encryptBlocks s.k (n + padLen n) (paddedBuf s.buf n)) s))) := by
  subst hn
  have hlen : ¬s.cfg.cap < s.len.toNat := by omega
  simp only [exec, execEncm, if_neg hlen, if_neg (Nat.not_lt.mpr hfit), paddedBuf]

/-- R112: the OK outcome of DECM, where the decrypted bytes end in a valid padding. -/
theorem exec_decm_of_valid {s : State} {n p : Nat} (hn : s.len.toNat = n) (hcap : n ≤ s.cfg.cap)
    (halign : n % 8 = 0) (hvalid : unpadCheck (memRead (decryptBlocks s.k n s.buf) 0 n) = .valid p) :
    exec .decm s = .next (done (setLen (n - p) (setBuf (decryptBlocks s.k n s.buf) s))) := by
  subst hn
  have hblocks : ¬s.len.toNat % blockSize ≠ 0 := not_not.mpr halign
  simp only [exec, execDecm, if_neg (Nat.not_lt.mpr hcap), if_neg hblocks, hvalid]

/-- R103, R113: decrypting an encrypted padded message gives a message with valid padding. -/
theorem unpadCheck_decryptBlocks_encryptBlocks (k : Key) {m : List Host.Cell} (h : Memory.wf m) (n : Nat) :
    unpadCheck (memRead (decryptBlocks k (n + padLen n) (encryptBlocks k (n + padLen n) (paddedBuf m n))) 0
      (n + padLen n)) = .valid (padLen n) := by
  have hplain := fun i (_ : i < n + padLen n) =>
    read_decryptBlocks_encryptBlocks k (n + padLen n) (wf_paddedBuf h n) (0 + i)
  rw [memRead_congr hplain, memRead_paddedBuf h, unpadCheck_pad, length_memRead]

/-- Settles O56: ENCM encrypts the padded buffer, DECM gets every byte of it back, and finds the padding valid. -/
theorem encmThenDecmRestoresTheMessage : Obligations.EncmThenDecmRestoresTheMessage := by
  intro s hinv n p hle
  obtain ⟨hcfg, ⟨hwf, -⟩, -⟩ := hinv
  have hfit : n + p ≤ s.cfg.cap := add_padLen_le_cap hcfg hle
  have halign : (n + p) % 8 = 0 := by rw [add_padLen, Nat.mul_mod_right]
  have hlen : (BitVec.ofNat 32 (n + p)).toNat = n + p := Nat.mod_eq_of_lt (by omega)
  have hplain := read_decryptBlocks_encryptBlocks s.k (n + p) (wf_paddedBuf hwf n)
  refine ⟨_, _, exec_encm_of_fits rfl hfit, done_status _,
    exec_decm_of_valid hlen hfit halign (unpadCheck_decryptBlocks_encryptBlocks s.k hwf n), done_status _,
    ?_, fun a ha => ?_, fun a hlo hhi => ?_⟩
  · rw [done_len, setLen_len, Nat.add_sub_cancel, BitVec.ofNat_toNat, BitVec.setWidth_eq]
  · exact (hplain a).trans (read_paddedBuf_of_lt hwf ha)
  · exact (hplain a).trans (read_paddedBuf_padding hwf hlo hhi)

end Sys2Proof.Machine
end

section
/-! CAPACITY_ERROR (60_exceptions.md R124): one equation for each command that can raise it. PAD and ENCM raise it
wherever the padded message is too long, since a message that is too long by itself has no room for padding
either. -/

namespace Sys2Proof.Machine

/-- R73: BTW past the end of the buffer. -/
theorem exec_btw_of_cap_lt {s : State} {off : Nat} (h : s.cfg.cap < off + 8) :
    exec (.btw off) s = .next (raise .capacityError s) :=
  if_neg h.not_ge

/-- R74: WTB past the end of the buffer. -/
theorem exec_wtb_of_cap_lt {s : State} {off : Nat} (h : s.cfg.cap < off + 8) :
    exec (.wtb off) s = .next (raise .capacityError s) :=
  if_neg h.not_ge

/-- R104, R111: the two capacity checks of PAD and ENCM, of the message and of the padded message, give one answer
where the padded message is too long: the second check alone decides it. -/
theorem capacityChecks_of_cap_lt {α : Type} {cap n p : Nat} (h : cap < n + p) (error ok : α) :
    (if cap < n then error else if cap < n + p then error else ok) = error := by
  rw [if_pos h, ite_self]

/-- R104: PAD without room for the padded message, by whichever of its two checks. -/
theorem exec_pad_of_cap_lt {s : State} (h : s.cfg.cap < s.len.toNat + padLen s.len.toNat) :
    exec .pad s = .next (raise .capacityError s) := capacityChecks_of_cap_lt h _ _

/-- R111: ENCM without room for the padded message, by whichever of its two checks. -/
theorem exec_encm_of_cap_lt {s : State} (h : s.cfg.cap < s.len.toNat + padLen s.len.toNat) :
    exec .encm s = .next (raise .capacityError s) := capacityChecks_of_cap_lt h _ _

/-- R105: UNPAD of a message longer than the buffer. -/
theorem exec_unpad_of_cap_lt {s : State} (h : s.cfg.cap < s.len.toNat) :
    exec .unpad s = .next (raise .capacityError s) := if_pos h

/-- R112: DECM of a message longer than the buffer. -/
theorem exec_decm_of_cap_lt {s : State} (h : s.cfg.cap < s.len.toNat) :
    exec .decm s = .next (raise .capacityError s) := if_pos h

/-- Settles O44: the three situations of R124, each by its commands' equations; what `raise` leaves is the state with
STATUS 3. -/
theorem capacityErrorsChangeNothing : Obligations.CapacityErrorsChangeNothing := by
  refine ⟨fun s off h => ⟨exec_btw_of_cap_lt h, exec_wtb_of_cap_lt h⟩, fun s h => ?_,
    fun s _ h => ⟨exec_pad_of_cap_lt h, exec_encm_of_cap_lt h⟩⟩
  have hpadded : s.cfg.cap < s.len.toNat + padLen s.len.toNat := Nat.lt_add_right _ h
  exact ⟨exec_pad_of_cap_lt hpadded, exec_unpad_of_cap_lt h, exec_encm_of_cap_lt hpadded, exec_decm_of_cap_lt h⟩

end Sys2Proof.Machine
end

section
/-! The encoder (30_encoding.md R52, R53, R58) against the decoder: a well-formed term is one whose offset fits OFF,
and then the two fields of its word are its own. -/

namespace Sys2Proof

/-- R53: well-formed is to have an offset that fits the 24 bits of OFF. -/
theorem wellFormed_iff (i : Instr) : i.wellFormed = true ↔ offsetOf i < 2 ^ 24 := by
  cases i with
  | btw off | wtb off => exact decide_eq_true_iff
  | _ => exact iff_of_true rfl (Nat.two_pow_pos 24)

/-- R52: every OP value fits a byte. -/
theorem opcodeOf_lt (i : Instr) : opcodeOf i < 256 := by
  cases i <;> simp only [opcodeOf] <;> omega

/-- R54, R58: decoding undoes encoding. -/
theorem decode_encode {i : Instr} (h : i.wellFormed = true) : decode (encode i) = .command i := by
  rw [decode_eq_command_iff, ← opField_eq_mod, ← offField_eq_div]
  exact fields_of_word (opcodeOf i) (offsetOf i) (opcodeOf_lt i) ((wellFormed_iff i).mp h)

/-- R54, R58: encoding undoes decoding, since a word is its two fields. -/
theorem encode_of_decode {w : Word} {i : Instr} (h : decode w = .command i) : encode i = w := by
  obtain ⟨hop, hoff⟩ := (decode_eq_command_iff w i).mp h
  have hword : offsetOf i * 256 + opcodeOf i = w.toNat := by omega
  rw [encode, hword, BitVec.ofNat_toNat, BitVec.setWidth_eq]

/-- R53: a word decodes to well-formed commands only, since OFF has 24 bits. -/
theorem wellFormed_of_decode {w : Word} {i : Instr} (h : decode w = .command i) : i.wellFormed = true := by
  obtain ⟨-, hoff⟩ := (decode_eq_command_iff w i).mp h
  rw [wellFormed_iff]
  omega

/-- Settles O1: OP and OFF of the encoded word are the command's own. -/
theorem decodeOfEncodeIsTheCommand : Obligations.DecodeOfEncodeIsTheCommand :=
  fun _ => decode_encode

/-- Settles O2: the two fields of the word give back the word, and OFF has 24 bits. -/
theorem encodeOfDecodeIsTheWord : Obligations.EncodeOfDecodeIsTheWord :=
  fun _ _ h => ⟨encode_of_decode h, wellFormed_of_decode h⟩

/-- Settles O6: every word is read by its two fields, as numbers; those that fit no row are reserved. -/
theorem specWordsDecode : Obligations.SpecWordsDecode := by
  have command (w : Word) (i : Instr) (h : w.toNat % 256 = opcodeOf i ∧ w.toNat / 256 = offsetOf i) :
      decode w = .command i := (decode_eq_command_iff w i).mpr h
  have reserved (w : Word) (h : ¬(w.toNat % 256 = 1 ∨ w.toNat % 256 = 2 ∨
      3 ≤ w.toNat % 256 ∧ w.toNat % 256 ≤ 8 ∧ w.toNat / 256 = 0)) : ∃ r, decode w = .reserved r := by
    rwa [exists_decode_eq_reserved_iff, exists_decode_eq_command_iff]
  exact ⟨command _ _ (by decide), command _ _ (by decide), command _ _ (by decide), command _ _ (by decide),
    command _ _ (by decide), command _ _ (by decide), command _ _ (by decide), command _ _ (by decide),
    reserved _ (by decide), reserved _ (by decide), reserved _ (by decide), reserved _ (by decide)⟩

end Sys2Proof
end

section
/-! What a command can do (R73, R74, R90, R91, R104, R105, R111, R112, R124), said once: the outcomes of a command as a
relation, which `exec` decides. The facts about all commands follow case by case. -/

namespace Sys2Proof.Machine

/-- R124: the situations of CAPACITY_ERROR: the block of BTW or WTB, the padded message of PAD or ENCM, the message of
UNPAD or DECM does not fit the buffer. -/
def LacksRoom (s : State) : Instr → Prop
  | .btw off | .wtb off => s.cfg.cap < off + 8
  | .encb | .decb => False
  | .pad | .encm => s.cfg.cap < s.len.toNat + padLen s.len.toNat
  | .unpad | .decm => s.cfg.cap < s.len.toNat

/-- `Ends s i t`: the command `i` started in `s` ends in `t`, one constructor per way it can end. -/
inductive Ends (s : State) : Instr → State → Prop
  | noRoom {i : Instr} (h : LacksRoom s i) : Ends s i (raise .capacityError s)
  | btw {off : Nat} (hfit : off + 8 ≤ s.cfg.cap) :
      Ends s (.btw off) (done (setBlock (b2w (readChunk s.buf off)) s))
  | wtb {off : Nat} (hfit : off + 8 ≤ s.cfg.cap) :
      Ends s (.wtb off) (done (setBuf (writeChunk s.buf off (w2b (s.v0, s.v1))) s))
  | encb : Ends s .encb (done (setBlock (teaEncrypt s.k (s.v0, s.v1)) s))
  | decb : Ends s .decb (done (setBlock (teaDecrypt s.k (s.v0, s.v1)) s))
  | pad (hfit : s.len.toNat + padLen s.len.toNat ≤ s.cfg.cap) :
      Ends s .pad (done (setLen (s.len.toNat + padLen s.len.toNat) (setBuf (paddedBuf s.buf s.len.toNat) s)))
  | unpad {p : Nat} (hcap : s.len.toNat ≤ s.cfg.cap)
      (hvalid : unpadCheck (memRead s.buf 0 s.len.toNat) = .valid p) :
      Ends s .unpad (done (setLen (s.len.toNat - p) s))
  | unpadInvalid (hcap : s.len.toNat ≤ s.cfg.cap)
      (hinvalid : unpadCheck (memRead s.buf 0 s.len.toNat) = .invalid) :
      Ends s .unpad (raise .paddingError s)
  | encm (hfit : s.len.toNat + padLen s.len.toNat ≤ s.cfg.cap) :
      Ends s .encm (done (setLen (s.len.toNat + padLen s.len.toNat)
        (setBuf (encryptBlocks s.k (s.len.toNat + padLen s.len.toNat) (paddedBuf s.buf s.len.toNat)) s)))
  | decmUnaligned (hcap : s.len.toNat ≤ s.cfg.cap) (hunaligned : s.len.toNat % 8 ≠ 0) :
      Ends s .decm (raise .alignmentError s)
  | decm {p : Nat} (hcap : s.len.toNat ≤ s.cfg.cap) (halign : s.len.toNat % 8 = 0)
      (hvalid : unpadCheck (memRead (decryptBlocks s.k s.len.toNat s.buf) 0 s.len.toNat) = .valid p) :
      Ends s .decm (done (setLen (s.len.toNat - p) (setBuf (decryptBlocks s.k s.len.toNat s.buf) s)))
  | decmInvalid (hcap : s.len.toNat ≤ s.cfg.cap) (halign : s.len.toNat % 8 = 0)
      (hinvalid : unpadCheck (memRead (decryptBlocks s.k s.len.toNat s.buf) 0 s.len.toNat) = .invalid) :
      Ends s .decm (raise .paddingError (setBuf (decryptBlocks s.k s.len.toNat s.buf) s))

/-- R124: a command that lacks room raises CAPACITY_ERROR. -/
theorem exec_of_lacksRoom {s : State} {i : Instr} (h : LacksRoom s i) :
    exec i s = .next (raise .capacityError s) := by
  cases i with
  | btw off => exact exec_btw_of_cap_lt h
  | wtb off => exact exec_wtb_of_cap_lt h
  | encb | decb => exact h.elim
  | pad => exact exec_pad_of_cap_lt h
  | unpad => exact exec_unpad_of_cap_lt h
  | encm => exact exec_encm_of_cap_lt h
  | decm => exact exec_decm_of_cap_lt h

/-- Each way a command can end, as the equation of `exec` there. -/
theorem Ends.exec_eq {s t : State} {i : Instr} (h : Ends s i t) : exec i s = .next t := by
  cases h with
  | noRoom h => exact exec_of_lacksRoom h
  | btw hfit | wtb hfit => exact if_pos hfit
  | encb | decb => rfl
  | pad hfit =>
    have hlen : ¬s.cfg.cap < s.len.toNat := by omega
    simp only [exec, execPad, if_neg hlen, if_neg hfit.not_gt, paddedBuf]
  | unpad hcap hcheck | unpadInvalid hcap hcheck =>
    simp only [exec, execUnpad, if_neg hcap.not_gt, hcheck]
  | encm hfit => exact exec_encm_of_fits rfl hfit
  | decmUnaligned hcap hunaligned => simp only [exec, execDecm, if_neg hcap.not_gt, if_pos hunaligned]
  | decm hcap halign hvalid => exact exec_decm_of_valid rfl hcap halign hvalid
  | decmInvalid hcap halign hinvalid =>
    simp only [exec, execDecm, if_neg hcap.not_gt, if_neg (not_not.mpr halign), hinvalid]

/-- R120: every command ends, in every state. -/
theorem exists_ends (i : Instr) (s : State) : ∃ t, Ends s i t := by
  by_cases hroom : LacksRoom s i
  · exact ⟨_, .noRoom hroom⟩
  cases i with
  | btw off => exact ⟨_, .btw (Nat.not_lt.mp hroom)⟩
  | wtb off => exact ⟨_, .wtb (Nat.not_lt.mp hroom)⟩
  | encb => exact ⟨_, .encb⟩
  | decb => exact ⟨_, .decb⟩
  | pad => exact ⟨_, .pad (Nat.not_lt.mp hroom)⟩
  | encm => exact ⟨_, .encm (Nat.not_lt.mp hroom)⟩
  | unpad =>
    cases hcheck : unpadCheck (memRead s.buf 0 s.len.toNat) with
    | valid p => exact ⟨_, .unpad (Nat.not_lt.mp hroom) hcheck⟩
    | invalid => exact ⟨_, .unpadInvalid (Nat.not_lt.mp hroom) hcheck⟩
  | decm =>
    by_cases halign : s.len.toNat % 8 = 0
    · cases hcheck : unpadCheck (memRead (decryptBlocks s.k s.len.toNat s.buf) 0 s.len.toNat) with
      | valid p => exact ⟨_, .decm (Nat.not_lt.mp hroom) halign hcheck⟩
      | invalid => exact ⟨_, .decmInvalid (Nat.not_lt.mp hroom) halign hcheck⟩
    · exact ⟨_, .decmUnaligned (Nat.not_lt.mp hroom) halign⟩

/-- `Ends` is what `exec` answers. -/
theorem exec_eq_next_iff (i : Instr) (s t : State) : exec i s = .next t ↔ Ends s i t := by
  refine ⟨fun h => ?_, Ends.exec_eq⟩
  obtain ⟨u, hu⟩ := exists_ends i s
  rw [hu.exec_eq, Host.Outcome.next.injEq] at h
  exact h ▸ hu

/-- R20: what no command changes: CAP, K and the model's own fields. -/
theorem Ends.frame {s t : State} {i : Instr} (h : Ends s i t) :
    t.cfg = s.cfg ∧ t.k = s.k ∧ t.resets = s.resets ∧ t.pending = s.pending ∧ t.reads = s.reads := by
  cases h <;> simp

/-- R8: no command changes CAP. -/
theorem Ends.cfg_eq {s t : State} {i : Instr} (h : Ends s i t) : t.cfg = s.cfg := by
  obtain ⟨hcfg, -⟩ := h.frame
  exact hcfg

/-- R11: no command changes K. -/
theorem Ends.k_eq {s t : State} {i : Instr} (h : Ends s i t) : t.k = s.k := by
  obtain ⟨-, hk, -⟩ := h.frame
  exact hk

/-- R16, R120: a command ends with a code in STATUS. -/
theorem Ends.exists_status_eq {s t : State} {i : Instr} (h : Ends s i t) : ∃ e : Code, t.status = e.toWord := by
  cases h with
  | noRoom => exact ⟨.capacityError, raise_status _ _⟩
  | btw | wtb | encb | decb | pad | unpad | encm | decm => exact ⟨.ok, done_status _⟩
  | unpadInvalid | decmInvalid => exact ⟨.paddingError, raise_status _ _⟩
  | decmUnaligned => exact ⟨.alignmentError, raise_status _ _⟩

/-- R110: the blocks of `n` bytes end at or before `n`. -/
theorem blocks_le {cap n : Nat} (h : n ≤ cap) : 8 * (0 + n / blockSize) ≤ cap := by
  simp only [blockSize]
  omega

/-- R110: EncryptBlocks keeps BUF a canonical store of CAP bytes where its bytes fit. -/
theorem bufWF_encryptBlocks (k : Key) {cap n : Nat} {m : List Host.Cell} (h : BufWF cap m) (hfit : n ≤ cap) :
    BufWF cap (encryptBlocks k n m) :=
  bufWF_transformBlocks (teaEncrypt k) (n / blockSize) 0 h (blocks_le hfit)

/-- R110: DecryptBlocks keeps BUF a canonical store of CAP bytes where its bytes fit. -/
theorem bufWF_decryptBlocks (k : Key) {cap n : Nat} {m : List Host.Cell} (h : BufWF cap m) (hfit : n ≤ cap) :
    BufWF cap (decryptBlocks k n m) :=
  bufWF_transformBlocks (teaDecrypt k) (n / blockSize) 0 h (blocks_le hfit)

/-- R104: the padded message stays inside the capacity where it fits. -/
theorem bufWF_paddedBuf {cap n : Nat} {m : List Host.Cell} (h : BufWF cap m) (hfit : n + padLen n ≤ cap) :
    BufWF cap (paddedBuf m n) :=
  bufWF_memWrite h _ (by rwa [length_padBytes])

/-- R17: every command keeps BUF a canonical store of CAP bytes. -/
theorem Ends.bufWF {s t : State} {i : Instr} (h : Ends s i t) (hbuf : BufWF s.cfg.cap s.buf) :
    BufWF s.cfg.cap t.buf := by
  cases h with
  | noRoom | btw | encb | decb | unpad | unpadInvalid | decmUnaligned => simpa using hbuf
  | wtb hfit => simpa using bufWF_writeChunk hbuf _ hfit
  | pad hfit => simpa using bufWF_paddedBuf hbuf hfit
  | encm hfit => simpa using bufWF_encryptBlocks s.k (bufWF_paddedBuf hbuf hfit) hfit
  | decm hcap | decmInvalid hcap => simpa using bufWF_decryptBlocks s.k hbuf hcap

end Sys2Proof.Machine
end

section
/-! What an event from outside can do (R31 to R36, R140), said once as a relation that `perform` decides, and from it
when a step stops and what a step keeps. -/

namespace Sys2Proof.Machine

/-- `Performs s e t`: the event `e` inside the map leads from `s` to `t`. -/
inductive Performs (s : State) : Event → State → Prop
  | store {r : Reg} (hr : r ≠ .cmd) (v : Word) : Performs s (.txn (.regWrite r.number v)) (writeReg s v r)
  | command {w : Word} {i : Instr} {t : State} (hw : decode w = .command i) (ht : Ends s i t) :
      Performs s (.txn (.regWrite 7 w)) t
  | reserved {w : Word} {r : ReservedWord} (hw : decode w = .reserved r) :
      Performs s (.txn (.regWrite 7 w)) (raise .illegalCmd s)
  | regRead (r : Reg) : Performs s (.txn (.regRead r.number)) (logRead (.word (readReg s r)) s)
  | bufWrite {a : Nat} (ha : a < s.cfg.cap) (b : Byte) :
      Performs s (.txn (.bufWrite a b)) (setBuf (Memory.write s.buf a b) s)
  | bufRead {a : Nat} (ha : a < s.cfg.cap) :
      Performs s (.txn (.bufRead a)) (logRead (.byte (Memory.read s.buf a)) s)
  | reset : Performs s .reset (resetEngine s)

/-- R33: RegRead of a register, by its number. -/
theorem transact_regRead_number (r : Reg) (s : State) :
    transact (.regRead r.number) s = .next (logRead (.word (readReg s r)) s) := by
  cases r <;> rfl

/-- R35: BufRead at an offset the buffer has. -/
theorem transact_bufRead_of_lt {s : State} {a : Nat} (ha : a < s.cfg.cap) :
    transact (.bufRead a) s = .next (logRead (.byte (Memory.read s.buf a)) s) := if_pos ha

/-- Each event inside the map, as the equation of `perform` there. -/
theorem Performs.perform_eq {s t : State} {e : Event} (h : Performs s e t) : perform e s = .next t := by
  cases h with
  | store hr v => exact transact_regWrite_number hr v s
  | command hw ht => exact (runCommandWord_of_command hw s).trans ht.exec_eq
  | reserved hw => exact runCommandWord_of_reserved hw s
  | regRead r => exact transact_regRead_number r s
  | bufWrite ha b => exact transact_bufWrite_of_lt ha b
  | bufRead ha => exact transact_bufRead_of_lt ha
  | reset => rfl

/-- R10: the numbers 0 to 8 name registers. -/
theorem Reg.exists_number_eq {n : Nat} (hn : n ≤ 8) : ∃ r : Reg, r.number = n := by
  cases h : Reg.ofNumber? n with
  | none => exact absurd ((Reg.ofNumber?_eq_none n).mp h) hn.not_gt
  | some r => exact ⟨r, (Reg.ofNumber?_eq_some n r).mp h⟩

/-- R32: a RegWrite to a register number of the map leads to a next state. -/
theorem exists_performs_regWrite (s : State) (r : Reg) (v : Word) :
    ∃ t, Performs s (.txn (.regWrite r.number v)) t := by
  by_cases hr : r = .cmd
  · subst hr
    cases hw : decode v with
    | command i =>
      obtain ⟨t, ht⟩ := exists_ends i s
      exact ⟨t, .command hw ht⟩
    | reserved => exact ⟨_, .reserved hw⟩
  · exact ⟨_, .store hr v⟩

/-- R31: a transaction inside the map leads to a next state. -/
theorem exists_performs_of_legal {s : State} {t : Txn} (h : t.legal s.cfg.cap = true) :
    ∃ s', Performs s (.txn t) s' := by
  cases t with
  | regWrite n v =>
    obtain ⟨r, rfl⟩ := Reg.exists_number_eq (of_decide_eq_true h)
    exact exists_performs_regWrite s r v
  | regRead n =>
    obtain ⟨r, rfl⟩ := Reg.exists_number_eq (of_decide_eq_true h)
    exact ⟨_, .regRead r⟩
  | bufWrite a b => exact ⟨_, .bufWrite (of_decide_eq_true h) b⟩
  | bufRead a => exact ⟨_, .bufRead (of_decide_eq_true h)⟩

/-- R36: a transaction outside the map is refused. -/
theorem exists_transact_eq_refused {s : State} {t : Txn} (h : t.legal s.cfg.cap = false) :
    ∃ r, transact t s = .refused r := by
  cases t with
  | regWrite n v => exact ⟨_, transact_regWrite_of_gt (Nat.not_le.mp (of_decide_eq_false h)) v s⟩
  | regRead n => exact ⟨_, transact_regRead_of_gt (Nat.not_le.mp (of_decide_eq_false h)) s⟩
  | bufWrite a b => exact ⟨_, transact_bufWrite_of_le (Nat.not_lt.mp (of_decide_eq_false h)) b⟩
  | bufRead a => exact ⟨_, transact_bufRead_of_le (Nat.not_lt.mp (of_decide_eq_false h))⟩

/-- R31, R36: a transaction gives a next state exactly when it is inside the map. -/
theorem exists_transact_eq_next_iff (t : Txn) (s : State) :
    (∃ s', transact t s = .next s') ↔ t.legal s.cfg.cap = true := by
  refine ⟨fun ⟨s', hs'⟩ => ?_, fun h => ?_⟩
  · by_contra hlegal
    obtain ⟨r, hr⟩ := exists_transact_eq_refused (eq_false_of_ne_true hlegal)
    rw [hr] at hs'
    cases hs'
  · obtain ⟨s', hs'⟩ := exists_performs_of_legal h
    exact ⟨s', hs'.perform_eq⟩

/-- `Performs` is what `perform` answers. -/
theorem perform_eq_next_iff (e : Event) (s t : State) : perform e s = .next t ↔ Performs s e t := by
  refine ⟨fun h => ?_, Performs.perform_eq⟩
  have hsome : ∃ u, Performs s e u := by
    cases e with
    | reset => exact ⟨_, .reset⟩
    | txn x => exact exists_performs_of_legal ((exists_transact_eq_next_iff x s).mp ⟨t, h⟩)
  obtain ⟨u, hu⟩ := hsome
  rw [hu.perform_eq, Host.Outcome.next.injEq] at h
  exact h ▸ hu

/-- R8: no event changes CAP. -/
theorem Performs.cfg_eq {s t : State} {e : Event} (h : Performs s e t) : t.cfg = s.cfg := by
  cases h with
  | store hr v => exact writeReg_cfg s v _
  | command hw ht => exact ht.cfg_eq
  | _ => rfl

/-- Every event inside the map keeps the invariant. -/
theorem Performs.inv {s t : State} {e : Event} (h : Performs s e t) (hinv : s.Inv) : t.Inv := by
  obtain ⟨hcfg, hbuf, hstatus⟩ := hinv
  refine ⟨h.cfg_eq ▸ hcfg, h.cfg_eq ▸ ?_, ?_⟩
  · cases h with
    | store hr v => exact (writeReg_buf s v _) ▸ hbuf
    | command hw ht => exact ht.bufWF hbuf
    | reserved | regRead | bufRead => exact hbuf
    | bufWrite ha b => exact bufWF_write hbuf ha b
    | reset => exact bufWF_fill _ _
  · cases h with
    | store hr v => exact (writeReg_status s v _) ▸ hstatus
    | command hw ht =>
      obtain ⟨e, he⟩ := ht.exists_status_eq
      exact he ▸ statusWF_toWord e
    | reserved => exact statusWF_toWord .illegalCmd
    | regRead | bufWrite | bufRead => exact hstatus
    | reset => exact Nat.zero_le 4

/-- R149: with nothing pending a step changes nothing. -/
theorem step_of_pending_nil {s : State} (h : s.pending = []) : step s = .next s := by
  simp only [step, issueNext, h]

/-- R8, R149: a step is the next pending event, in the state in which it is no longer pending. -/
theorem step_of_pending_cons {s : State} {e : Event} {rest : List Event} (h : s.pending = e :: rest) :
    step s = perform e { s with pending := rest } := by
  simp only [step, issueNext, h]

/-- What a step can do: nothing, or the next pending event. -/
theorem step_eq_next_cases {s t : State} (h : step s = .next t) :
    t = s ∨ ∃ e rest, s.pending = e :: rest ∧ Performs { s with pending := rest } e t := by
  cases hp : s.pending with
  | nil =>
    rw [step_of_pending_nil hp, Host.Outcome.next.injEq] at h
    exact .inl h.symm
  | cons e rest =>
    rw [step_of_pending_cons hp] at h
    exact .inr ⟨e, rest, rfl, (perform_eq_next_iff e _ t).mp h⟩

/-- Settles O59: every event inside the map keeps the invariant, and which events are pending is no part of it. -/
theorem everyStepKeepsTheInvariant : Obligations.EveryStepKeepsTheInvariant := by
  intro s t hinv h
  obtain rfl | ⟨e, rest, -, hperf⟩ := step_eq_next_cases h
  · exact ⟨hinv, rfl⟩
  · exact ⟨hperf.inv ⟨hinv.cfg, hinv.buf, hinv.status⟩, hperf.cfg_eq⟩

/-- Settles O14: inside the map `transact` answers a next state. -/
theorem everyLegalTransactionSucceeds : Obligations.EveryLegalTransactionSucceeds :=
  fun t s => (exists_transact_eq_next_iff t s).mpr

/-- Settles O15: an empty list and a reset never stop, a transaction stops exactly outside the map. -/
theorem stepStopsOnlyOutsideTheMap : Obligations.StepStopsOnlyOutsideTheMap := by
  intro s
  rw [← not_exists]
  cases hp : s.pending with
  | nil => simp [step_of_pending_nil hp]
  | cons e rest =>
    rw [step_of_pending_cons hp]
    cases e with
    | reset => simp
    | txn t => simp [perform, exists_transact_eq_next_iff]

/-- Settles O16: every other event stores, logs or writes a byte, and leaves STATUS alone. -/
theorem statusChangesOnlyByCommandOrReset : Obligations.StatusChangesOnlyByCommandOrReset := by
  intro e s t h hne
  cases (perform_eq_next_iff e s t).mp h with
  | store hr v => exact absurd (writeReg_status s v _) hne
  | command hw ht => exact .inr ⟨_, rfl⟩
  | reserved hw => exact .inr ⟨_, rfl⟩
  | regRead | bufWrite | bufRead => exact absurd rfl hne
  | reset => exact .inl rfl

/-- R11: a register write changes K only where the register is one of K[0..3]. -/
theorem writeReg_k_of_number_gt (s : State) (v : Word) {r : Reg} (h : 3 < r.number) : (writeReg s v r).k = s.k := by
  cases r with
  | k0 | k1 | k2 | k3 => simp [Reg.number] at h
  | _ => rfl

/-- R11: what an event that changes K is. -/
theorem Performs.event_of_k_ne {s t : State} {e : Event} (h : Performs s e t) (hne : t.k ≠ s.k) :
    e = .reset ∨ ∃ n v, n ≤ 3 ∧ e = .txn (.regWrite n v) := by
  cases h with
  | @store r hr v =>
    exact .inr ⟨r.number, v, Nat.not_lt.mp fun hgt => hne (writeReg_k_of_number_gt s v hgt), rfl⟩
  | command hw ht => exact absurd ht.k_eq hne
  | reserved | regRead | bufWrite | bufRead => exact absurd rfl hne
  | reset => exact .inl rfl

/-- Settles O17: a step that changes K issued an event that does. -/
theorem keyChangesOnlyByHostWriteOrReset : Obligations.KeyChangesOnlyByHostWriteOrReset := by
  intro s t h hne
  obtain rfl | ⟨e, rest, hp, hperf⟩ := step_eq_next_cases h
  · exact absurd rfl hne
  obtain rfl | ⟨n, v, hn, rfl⟩ := hperf.event_of_k_ne hne
  · exact ⟨rest, .inl hp⟩
  · exact ⟨rest, .inr ⟨n, v, hn, hp⟩⟩

/-- Settles O7: a word that decodes is a well-formed command, and the write to CMD runs it. -/
theorem stepRunsTheDecodedCommand : Obligations.StepRunsTheDecodedCommand := by
  intro s w rest i hp hw
  refine ⟨wellFormed_of_decode hw, ?_⟩
  rw [step_of_pending_cons hp]
  exact runCommandWord_of_command hw _

/-- Settles O8: nothing pending, a transaction next, a reset next. -/
theorem stepIssuesTheNextEvent : Obligations.StepIssuesTheNextEvent :=
  ⟨fun _ => step_of_pending_nil, fun _ _ _ => step_of_pending_cons, fun _ _ => step_of_pending_cons⟩

/-- Settles O10: RegRead of each of the nine registers. -/
theorem regReadReturnsTheRegister : Obligations.RegReadReturnsTheRegister := by
  intro s
  have hread (r : Reg) := transact_regRead_number r s
  exact ⟨hread .k0, hread .k1, hread .k2, hread .k3, hread .v0, hread .v1, hread .len, hread .cmd, hread .status⟩

/-- Settles O13: BufRead logs the byte at its offset. -/
theorem bufReadReturnsTheByte : Obligations.BufReadReturnsTheByte :=
  fun _ _ => transact_bufRead_of_lt

/-- Settles O58: the default capacity is admitted, the empty store is canonical, and 0 is a code. -/
theorem resetMeetsTheInvariant : Obligations.ResetMeetsTheInvariant where
  cfg := by decide
  buf := ⟨Memory.wf_nil, nofun⟩
  status := Nat.zero_le 4

end Sys2Proof.Machine
end

section
/-! The rules about all commands (R20, R121, R127, R128, and what a command does not read), each by the outcomes of
`Ends`. -/

namespace Sys2Proof.Machine

/-- R12, R110: the message commands leave V alone. -/
theorem Ends.block_eq {s t : State} {i : Instr} (h : Ends s i t)
    (hi : i = .pad ∨ i = .unpad ∨ i = .encm ∨ i = .decm) : t.v0 = s.v0 ∧ t.v1 = s.v1 := by
  cases h with
  | btw | wtb | encb | decb => simp at hi
  | _ => simp

/-- R13: the commands on a block leave LEN alone. -/
theorem Ends.len_eq {s t : State} {i : Instr} (h : Ends s i t)
    (hi : (∃ off, i = .btw off ∨ i = .wtb off) ∨ i = .encb ∨ i = .decb) : t.len = s.len := by
  cases h with
  | noRoom | btw | wtb | encb | decb => simp
  | _ => simp at hi

/-- R104: the padding leaves every byte outside its own alone. -/
theorem read_paddedBuf_outside {m : List Host.Cell} (h : Memory.wf m) {n a : Nat} (ha : Outside n (padLen n) a) :
    Memory.read (paddedBuf m n) a = Memory.read m a :=
  read_memWrite_outside h _ (by rwa [length_padBytes])

/-- R110: EncryptBlocks(n) leaves every byte at or above `n` alone. -/
theorem read_encryptBlocks_of_le (k : Key) {m : List Host.Cell} (h : Memory.wf m) {n a : Nat} (ha : n ≤ a) :
    Memory.read (encryptBlocks k n m) a = Memory.read m a :=
  read_transformBlocks_outside (teaEncrypt k) (n / 8) 0 h (.inr (by omega))

/-- R110: DecryptBlocks(n) leaves every byte at or above `n` alone. -/
theorem read_decryptBlocks_of_le (k : Key) {m : List Host.Cell} (h : Memory.wf m) {n a : Nat} (ha : n ≤ a) :
    Memory.read (decryptBlocks k n m) a = Memory.read m a :=
  read_transformBlocks_outside (teaDecrypt k) (n / 8) 0 h (.inr (by omega))

/-- The bytes a command may change: the block of WTB, the padding of PAD, everything below the end of the padded
message of ENCM, and the message of DECM (R20). -/
def MayWrite (s : State) (a : Nat) : Instr → Prop
  | .wtb off => ¬Outside off 8 a
  | .pad => ¬Outside s.len.toNat (padLen s.len.toNat) a
  | .encm => a < s.len.toNat + padLen s.len.toNat
  | .decm => a < s.len.toNat
  | .btw _ | .encb | .decb | .unpad => False

/-- R20: a command leaves every other byte as it was, in every outcome. -/
theorem Ends.read_eq {s t : State} {i : Instr} (h : Ends s i t) (hwf : Memory.wf s.buf) {a : Nat}
    (ha : ¬MayWrite s a i) : Memory.read t.buf a = Memory.read s.buf a := by
  cases h with
  | noRoom | btw | encb | decb | unpad | unpadInvalid | decmUnaligned => simp
  | wtb hfit => simpa using read_writeChunk_outside hwf _ (not_not.mp ha)
  | pad hfit => simpa using read_paddedBuf_outside hwf (not_not.mp ha)
  | encm hfit =>
    have hend : s.len.toNat + padLen s.len.toNat ≤ a := Nat.not_lt.mp ha
    have hpadded := read_paddedBuf_outside hwf (.inr hend)
    simpa using (read_encryptBlocks_of_le s.k (wf_paddedBuf hwf _) hend).trans hpadded
  | decm | decmInvalid => simpa using read_decryptBlocks_of_le s.k hwf (Nat.not_lt.mp ha)

/-- Settles O19: the fields by `Ends.frame`, `Ends.block_eq` and `Ends.len_eq`, the bytes by `Ends.read_eq`. -/
theorem commandsWriteOnlyTheirState : Obligations.CommandsWriteOnlyTheirState := by
  intro i s t hwf hexec n
  have h := (exec_eq_next_iff i s t).mp hexec
  obtain ⟨hcfg, hk, hresets, hpending, hreads⟩ := h.frame
  refine ⟨hcfg, hk, hresets, hpending, hreads, ?_⟩
  have hread := fun a => h.read_eq hwf (a := a)
  cases i with
  | btw off => exact ⟨h.len_eq (by simp), fun a => hread a not_false⟩
  | encb | decb => exact ⟨h.len_eq (by simp), fun a => hread a not_false⟩
  | wtb off =>
    have hlen := h.len_eq (by simp)
    cases h with
    | noRoom | wtb => exact ⟨by simp, by simp, hlen, fun a ha => hread a (not_not.mpr ha)⟩
  | pad =>
    obtain ⟨hv0, hv1⟩ := h.block_eq (by simp)
    exact ⟨hv0, hv1, fun a ha => hread a (not_not.mpr ha)⟩
  | unpad =>
    obtain ⟨hv0, hv1⟩ := h.block_eq (by simp)
    exact ⟨hv0, hv1, fun a => hread a not_false⟩
  | encm | decm =>
    obtain ⟨hv0, hv1⟩ := h.block_eq (by simp)
    exact ⟨hv0, hv1, fun a ha => hread a (Nat.not_lt.mpr ha)⟩

/-- Settles O20: every command ends, with the code of that outcome. -/
theorem everyCommandEndsWithItsCodes : Obligations.EveryCommandEndsWithItsCodes := by
  intro i s
  obtain ⟨t, h⟩ := exists_ends i s
  refine ⟨t, h.exec_eq, ?_⟩
  cases h with
  | noRoom hroom =>
    cases i with
    | encb | decb => exact hroom.elim
    | _ => simp [Code.toWord]
  | _ => simp [Code.toWord]

/-- Settles O21: an outcome other than OK is `raise` in the state itself, but for the invalid padding of DECM. -/
theorem errorsChangeOnlyStatus : Obligations.ErrorsChangeOnlyStatus := by
  intro i s t hexec hne hdecm
  cases (exec_eq_next_iff i s t).mp hexec with
  | noRoom | unpadInvalid | decmUnaligned => rfl
  | btw | wtb | encb | decb | pad | unpad | encm | decm => exact absurd (done_status _) hne
  | decmInvalid => exact absurd ⟨rfl, raise_status _ _⟩ hdecm

/-- R128: a command started with another STATUS ends in the same state: no condition of an outcome reads STATUS, and
every outcome overwrites it. -/
theorem Ends.withStatus {s t : State} {i : Instr} (h : Ends s i t) (x : Word) : Ends { s with status := x } i t := by
  cases h with
  | noRoom hroom => exact .noRoom hroom
  | btw hfit => exact .btw hfit
  | wtb hfit => exact .wtb hfit
  | encb => exact .encb
  | decb => exact .decb
  | pad hfit => exact .pad hfit
  | unpad hcap hcheck => exact .unpad hcap hcheck
  | unpadInvalid hcap hcheck => exact .unpadInvalid hcap hcheck
  | encm hfit => exact .encm hfit
  | decmUnaligned hcap halign => exact .decmUnaligned hcap halign
  | decm hcap halign hcheck => exact .decm hcap halign hcheck
  | decmInvalid hcap halign hcheck => exact .decmInvalid hcap halign hcheck

/-- Settles O22: both states end in the same state. -/
theorem commandsIgnoreTheLastOutcome : Obligations.CommandsIgnoreTheLastOutcome := by
  intro i s x
  obtain ⟨t, h⟩ := exists_ends i s
  exact (h.withStatus x).exec_eq.trans h.exec_eq.symm

/-- R12, R110: a message command started with other words in V ends alike, with those words in V. -/
theorem Ends.withBlock {s t : State} {i : Instr} (h : Ends s i t)
    (hi : i = .pad ∨ i = .unpad ∨ i = .encm ∨ i = .decm) (w : Word × Word) :
    Ends (setBlock w s) i (setBlock w t) := by
  cases h with
  | btw | wtb | encb | decb => simp at hi
  | noRoom hroom => obtain rfl | rfl | rfl | rfl := hi <;> exact .noRoom hroom
  | pad hfit => exact .pad hfit
  | unpad hcap hcheck => exact .unpad hcap hcheck
  | unpadInvalid hcap hcheck => exact .unpadInvalid hcap hcheck
  | encm hfit => exact .encm hfit
  | decmUnaligned hcap halign => exact .decmUnaligned hcap halign
  | decm hcap halign hcheck => exact .decm hcap halign hcheck
  | decmInvalid hcap halign hcheck => exact .decmInvalid hcap halign hcheck

/-- Settles O23: V stays, and other words in V stay too. -/
theorem messageCommandsIgnoreTheBlock : Obligations.MessageCommandsIgnoreTheBlock := by
  intro i s a b hi
  obtain ⟨t, h⟩ := exists_ends i s
  obtain ⟨hv0, hv1⟩ := h.block_eq hi
  exact ⟨t, h.exec_eq, hv0, hv1, (h.withBlock hi (a, b)).exec_eq⟩

/-- R13, R20: a command on a block started with another LEN ends alike, with that LEN. -/
theorem Ends.withLen {s t : State} {i : Instr} (h : Ends s i t)
    (hi : (∃ off, i = .btw off ∨ i = .wtb off) ∨ i = .encb ∨ i = .decb) (n : Word) :
    Ends { s with len := n } i { t with len := n } := by
  cases h with
  | noRoom hroom => obtain ⟨off, rfl | rfl⟩ | rfl | rfl := hi <;> exact .noRoom hroom
  | btw hfit => exact .btw hfit
  | wtb hfit => exact .wtb hfit
  | encb => exact .encb
  | decb => exact .decb
  | _ => simp at hi

/-- Settles O24: LEN stays, and another LEN stays too. -/
theorem blockCommandsIgnoreTheLength : Obligations.BlockCommandsIgnoreTheLength := by
  intro i s n hi
  obtain ⟨t, h⟩ := exists_ends i s
  exact ⟨t, h.exec_eq, h.len_eq hi, (h.withLen hi n).exec_eq⟩

/-- R20: BTW, WTB, PAD and UNPAD started with another key end alike, with that key. -/
theorem Ends.withKey {s t : State} {i : Instr} (h : Ends s i t)
    (hi : (∃ off, i = .btw off ∨ i = .wtb off) ∨ i = .pad ∨ i = .unpad) (k : Key) :
    Ends { s with k := k } i { t with k := k } := by
  cases h with
  | noRoom hroom => obtain ⟨off, rfl | rfl⟩ | rfl | rfl := hi <;> exact .noRoom hroom
  | btw hfit => exact .btw hfit
  | wtb hfit => exact .wtb hfit
  | pad hfit => exact .pad hfit
  | unpad hcap hcheck => exact .unpad hcap hcheck
  | unpadInvalid hcap hcheck => exact .unpadInvalid hcap hcheck
  | _ => simp at hi

/-- R20: ENCB and DECB started with another buffer end alike, with that buffer. -/
theorem Ends.withBuf {s t : State} {i : Instr} (h : Ends s i t) (hi : i = .encb ∨ i = .decb)
    (m : List Host.Cell) : Ends (setBuf m s) i (setBuf m t) := by
  cases h with
  | noRoom hroom => obtain rfl | rfl := hi <;> exact hroom.elim
  | encb => exact .encb
  | decb => exact .decb
  | _ => simp at hi

/-- Settles O25: another key stays through the codec and the padding, another buffer through the cipher. -/
theorem codecAndPaddingIgnoreTheKeyCipherIgnoresTheBuffer :
    Obligations.CodecAndPaddingIgnoreTheKeyCipherIgnoresTheBuffer := by
  refine ⟨fun i s k hi => ?_, fun i s m hi => ?_⟩
  · obtain ⟨t, h⟩ := exists_ends i s
    exact ⟨t, h.exec_eq, (h.withKey hi k).exec_eq⟩
  · obtain ⟨t, h⟩ := exists_ends i s
    exact ⟨t, h.exec_eq, (h.withBuf hi m).exec_eq⟩

end Sys2Proof.Machine
end

section
/-! Canonical stores as functions (10_state.md section 5): two that read alike are equal data, so equalities of buffers
are equalities of bytes. -/

namespace Sys2Proof.Machine

/-- The first entry of a store is what its offset reads as. -/
@[simp] theorem Memory.read_cons_self (x : Nat) (c : Byte) (m : List Host.Cell) : Memory.read ((x, c) :: m) x = c :=
  if_pos rfl

/-- Below the first entry of a canonical store every offset is unlisted. -/
theorem Memory.read_of_lt_head {x a : Nat} {c : Byte} {m : List Host.Cell} (h : Memory.wf ((x, c) :: m)) (ha : a < x) :
    Memory.read ((x, c) :: m) a = unlistedByte := by
  refine Memory.read_unlisted ?_
  rintro d (_ | ⟨_, hd⟩)
  · exact ha.ne'
  · exact (ha.trans (Memory.wf_head_lt h d hd)).ne'

/-- The first entry of a canonical store reads as no unlisted offset does. -/
theorem Memory.read_head_ne {x : Nat} {c : Byte} {m : List Host.Cell} (h : Memory.wf ((x, c) :: m)) :
    Memory.read ((x, c) :: m) x ≠ unlistedByte := by
  rw [Memory.read_cons_self]
  exact h.2 (x, c) (List.mem_cons_self ..)

/-- A canonical store without its first entry reads as before everywhere but at that entry. -/
theorem Memory.read_tail {x : Nat} {c : Byte} {m : List Host.Cell} (h : Memory.wf ((x, c) :: m)) (a : Nat) :
    Memory.read m a = if x = a then unlistedByte else Memory.read ((x, c) :: m) a := by
  split
  · next hx =>
    subst hx
    exact Memory.read_unlisted fun d hd => (Memory.wf_head_lt h d hd).ne'
  · next hx => exact (if_neg hx).symm

/-- A canonical store begins no later than another one whose first offset it reads alike: below its own first entry it
reads as unlisted. -/
theorem Memory.head_le_head {x y : Nat} {b c : Byte} {m m' : List Host.Cell} (h : Memory.wf ((x, b) :: m))
    (h' : Memory.wf ((y, c) :: m')) (hread : Memory.read ((x, b) :: m) y = Memory.read ((y, c) :: m') y) : x ≤ y := by
  by_contra hlt
  exact Memory.read_head_ne h' (hread ▸ Memory.read_of_lt_head h (Nat.not_le.mp hlt))

/-- Canonical stores that read alike are equal data. -/
theorem Memory.ext_read {m m' : List Host.Cell} (h : Memory.wf m) (h' : Memory.wf m')
    (hread : ∀ a, Memory.read m a = Memory.read m' a) : m = m' := by
  induction m generalizing m' with
  | nil =>
    cases m' with
    | nil => rfl
    | cons d m' => exact absurd (hread d.1).symm (Memory.read_head_ne h')
  | cons d m ih =>
    obtain ⟨x, b⟩ := d
    cases m' with
    | nil => exact absurd (hread x) (Memory.read_head_ne h)
    | cons d' m' =>
      obtain ⟨y, c⟩ := d'
      obtain rfl : x = y := le_antisymm (Memory.head_le_head h h' (hread y)) (Memory.head_le_head h' h (hread x).symm)
      have hbyte : b = c := by simpa using hread x
      have htail : m = m' := ih (Memory.wf_tail h) (Memory.wf_tail h') fun a => by
        rw [Memory.read_tail h, Memory.read_tail h', hread a]
      rw [hbyte, htail]

/-- Canonical stores whose blocks read alike are equal data. -/
theorem Memory.ext_readChunk {m m' : List Host.Cell} (h : Memory.wf m) (h' : Memory.wf m')
    (hread : ∀ j, readChunk m (8 * j) = readChunk m' (8 * j)) : m = m' := by
  refine Memory.ext_read h h' fun a => ?_
  have hbyte := read_eq_of_readChunk_eq (hread (a / 8)) (Nat.mod_lt a (by omega))
  rwa [Nat.div_add_mod] at hbyte

/-- Writing back the 8 bytes that stand there changes nothing. -/
theorem writeChunk_readChunk {m : List Host.Cell} (h : Memory.wf m) (a : Nat) : writeChunk m a (readChunk m a) = m := by
  refine Memory.ext_read (wf_writeChunk h a _) h fun x => ?_
  by_cases hx : Outside a 8 x
  · exact read_writeChunk_outside h _ hx
  · have hchunk := read_eq_of_readChunk_eq (readChunk_writeChunk h a (readChunk m a)) (i := x - a) (by omega)
    rwa [Nat.add_sub_of_le (by omega)] at hchunk

/-- R110: what one pass of a block loop leaves in each block. -/
theorem readChunk_transformBlock_block (f : Word × Word → Word × Word) {m : List Host.Cell} (h : Memory.wf m)
    (i j : Nat) : readChunk (transformBlock f m (8 * i)) (8 * j) =
      if j = i then w2b (f (b2w (readChunk m (8 * j)))) else readChunk m (8 * j) := by
  split
  · next hji => rw [hji, readChunk_transformBlock f h]
  · next hji => exact readChunk_congr fun x hx => read_transformBlock_outside f h (by simp only [Outside]; omega)

/-- Settles O60: by the first entries of both stores. -/
theorem buffersThatReadAlikeAreEqual : Obligations.BuffersThatReadAlikeAreEqual :=
  fun _ _ => Memory.ext_read

/-- Settles O50: in either order every block is transformed where it is `i` or `j`, and as before elsewhere. -/
theorem blockOrderCannotBeObserved : Obligations.BlockOrderCannotBeObserved := by
  intro f m i j h hij
  have hi := wf_transformBlock f h (8 * i)
  have hj := wf_transformBlock f h (8 * j)
  refine Memory.ext_readChunk (wf_transformBlock f hi _) (wf_transformBlock f hj _) fun b => ?_
  simp only [readChunk_transformBlock_block f hi, readChunk_transformBlock_block f hj,
    readChunk_transformBlock_block f h]
  split_ifs with hbj hbi
  · exact absurd (hbi.symm.trans hbj) hij
  · rfl
  · rfl
  · rfl

end Sys2Proof.Machine
end

section
/-! The codec commands BTW and WTB (R73, R74) and the bytes W2B gives (R71). -/

namespace Sys2Proof.Machine

/-- R70: a word packed from 4 bytes is the word of their number. -/
theorem joinBytes_eq_ofNat (b0 b1 b2 b3 : Byte) : joinBytes b0 b1 b2 b3 =
    BitVec.ofNat 32 (b0.toNat * 2 ^ 24 + b1.toNat * 2 ^ 16 + b2.toNat * 2 ^ 8 + b3.toNat) := by
  rw [← toNat_joinBytes, BitVec.ofNat_toNat, BitVec.setWidth_eq]

/-- R71: the first 4 bytes are those of the first word, the most significant first. -/
theorem toNat_getElem_w2b_fst (w : Word × Word) {i : Nat} (hi : i < 4) :
    ((w2b w).toList[i]'(by simp; omega)).toNat = w.1.toNat / 2 ^ (24 - 8 * i) % 256 := by
  interval_cases i <;> exact toNat_extractByte w.1 _

/-- R71: the last 4 bytes are those of the second word, the most significant first. -/
theorem toNat_getElem_w2b_snd (w : Word × Word) {i : Nat} (hi : i < 4) :
    ((w2b w).toList[4 + i]'(by simp; omega)).toNat = w.2.toNat / 2 ^ (24 - 8 * i) % 256 := by
  interval_cases i <;> exact toNat_extractByte w.2 _

/-- Settles O27: each of the 8 bytes is a byte of its word. -/
theorem wordsToBytesListsHighBytesFirst : Obligations.WordsToBytesListsHighBytesFirst := by
  intro w0 w1
  simp only [Chunk.toList, w2b, List.map_cons, List.map_nil, toNat_extractByte, pow_zero, Nat.div_one]

/-- Settles O29: the OK outcome of BTW, each word by its number. -/
theorem btwLoadsTheBlock : Obligations.BtwLoadsTheBlock := by
  intro s off hfit byte
  have hword (i : Nat) := joinBytes_eq_ofNat (Memory.read s.buf (off + i)) (Memory.read s.buf (off + (i + 1)))
    (Memory.read s.buf (off + (i + 2))) (Memory.read s.buf (off + (i + 3)))
  rw [(Ends.btw hfit).exec_eq, ← hword 0, ← hword 4]
  rfl

/-- Settles O30: the OK outcome of WTB, its bytes by W2B and the frame of an 8-byte write. -/
theorem wtbStoresTheBlock : Obligations.WtbStoresTheBlock := by
  intro s off hwf hfit
  have hbyte (i : Nat) (hi : i < 8) := read_writeChunk_inside hwf (a := off) (w2b (s.v0, s.v1)) hi
  refine ⟨_, (Ends.wtb hfit).exec_eq, rfl, fun i hi => ?_, fun i hi => ?_, fun a ha => ?_⟩
  · rw [done_buf, setBuf_buf, hbyte i (by omega)]
    exact toNat_getElem_w2b_fst (s.v0, s.v1) hi
  · rw [done_buf, setBuf_buf, Nat.add_assoc, hbyte (4 + i) (by omega)]
    exact toNat_getElem_w2b_snd (s.v0, s.v1) hi
  · exact read_writeChunk_outside hwf _ ha

/-- Settles O31: the second command reads what the first wrote, and the codec undoes itself. -/
theorem codecCommandsUndoEachOther : Obligations.CodecCommandsUndoEachOther := by
  intro s off hinv hfit
  obtain ⟨-, ⟨hwf, -⟩, -⟩ := hinv
  constructor
  · have hwtb := Ends.wtb hfit
    have hbtw := Ends.btw (hwtb.cfg_eq.symm ▸ hfit)
    refine ⟨_, _, hwtb.exec_eq, hbtw.exec_eq, ?_⟩
    simp [readChunk_writeChunk hwf, b2w_w2b]
  · have hbtw := Ends.btw hfit
    have hwtb := Ends.wtb (hbtw.cfg_eq.symm ▸ hfit)
    refine ⟨_, _, hbtw.exec_eq, hwtb.exec_eq, ?_⟩
    simp [w2b_b2w, writeChunk_readChunk hwf]

end Sys2Proof.Machine
end

section
/-! The key schedule as a fold over the rounds (R83, R86, R87), and ENCB and DECB by it (R90, R91). -/

namespace Sys2Proof.Machine

/-- R86: `n` encryption rounds, round `i` with `sum_i`. -/
theorem encRounds_eq_foldl (k : Key) (n : Nat) (v : Word × Word) :
    encRounds k n (roundSum 0) v = (List.range n).foldl (fun v i => encRound v (roundSum (i + 1)) k) v := by
  induction n with
  | zero => rfl
  | succ n ih => rw [encRounds_succ_last, ih, Nat.zero_add, List.range_succ, List.foldl_concat]

/-- R87: `n` decryption rounds, from `sum_n` down to `sum_1`. -/
theorem decRounds_eq_foldl (k : Key) (n : Nat) (v : Word × Word) :
    decRounds k n (roundSum n) v = (List.range n).foldl (fun v j => decRound v (roundSum (n - j)) k) v := by
  induction n generalizing v with
  | zero => rfl
  | succ n ih =>
    rw [decRounds_succ_roundSum, ih, List.range_succ_eq_map, List.foldl_cons, List.foldl_map]
    simp only [Nat.succ_eq_add_one, Nat.add_sub_add_right, Nat.sub_zero]

/-- R86: TeaEncrypt is 32 rounds with the sums in rising order. -/
theorem teaEncrypt_eq_foldl (k : Key) (v : Word × Word) : teaEncrypt k v =
    (List.range 32).foldl (fun v i => encRound v (roundSum (i + 1)) k) v := by
  rw [teaEncrypt_eq_encRounds, encRounds_eq_foldl]

/-- R87: TeaDecrypt is 32 rounds with the sums in falling order. -/
theorem teaDecrypt_eq_foldl (k : Key) (v : Word × Word) : teaDecrypt k v =
    (List.range 32).foldl (fun v j => decRound v (roundSum (32 - j)) k) v := by
  rw [teaDecrypt_eq_decRounds, decRounds_eq_foldl]

/-- Settles O35: 32 rounds as folds, with the sums as multiples of DELTA. -/
theorem keyScheduleIsMultiplesOfDelta : Obligations.KeyScheduleIsMultiplesOfDelta :=
  fun k v => ⟨teaEncrypt_eq_foldl k v, teaDecrypt_eq_foldl k v⟩

/-- What a command that loads a block and ends OK leaves. -/
theorem done_setBlock (w : Word × Word) (s : State) :
    done (setBlock w s) = { s with v0 := w.1, v1 := w.2, status := 0 } := rfl

/-- Settles O38: ENCB has one outcome, and the key schedule says which block it leaves. -/
theorem encbEncryptsTheBlock : Obligations.EncbEncryptsTheBlock := by
  intro s c
  have hc : teaEncrypt s.k (s.v0, s.v1) = c := teaEncrypt_eq_foldl s.k (s.v0, s.v1)
  rw [Ends.encb.exec_eq, hc, done_setBlock]

/-- Settles O39: DECB has one outcome, and the key schedule says which block it leaves. -/
theorem decbDecryptsTheBlock : Obligations.DecbDecryptsTheBlock := by
  intro s p
  have hp : teaDecrypt s.k (s.v0, s.v1) = p := teaDecrypt_eq_foldl s.k (s.v0, s.v1)
  rw [Ends.decb.exec_eq, hp, done_setBlock]

end Sys2Proof.Machine
end

section
/-! UnpadCheck of the bytes of a store (R103), and PAD and UNPAD by it (R7, R104, R105). -/

namespace Sys2Proof.Machine

/-- MemRead, byte by byte. -/
theorem getElem?_memRead (m : List Host.Cell) (a : Nat) {n i : Nat} (hi : i < n) :
    (memRead m a n)[i]? = some (Memory.read m (a + i)) := by
  rw [List.getElem?_eq_getElem (by simpa using hi), getElem_memRead]

/-- R103: the first `n` bytes are valid exactly where they end in `p` bytes of value `p`, 1 to 8 of them. -/
theorem unpadCheck_memRead_eq_valid_iff (m : List Host.Cell) (n p : Nat) :
    unpadCheck (memRead m 0 n) = .valid p ↔
      1 ≤ p ∧ p ≤ 8 ∧ p ≤ n ∧ ∀ a, n - p ≤ a → a < n → Memory.read m a = BitVec.ofNat 8 p := by
  rw [unpadCheck_eq_valid_iff, padBytes_suffix_iff, length_memRead]
  have hbytes (a : Nat) (ha : a < n) :
      (memRead m 0 n)[a]? = some (BitVec.ofNat 8 p) ↔ Memory.read m a = BitVec.ofNat 8 p := by
    rw [getElem?_memRead m 0 ha, Nat.zero_add, Option.some.injEq]
  refine and_congr_right' (and_congr_right' (and_congr_right' ?_))
  exact forall_congr' fun a => imp_congr_right fun _ => forall_congr' (hbytes a)

/-- R103: the first `n` bytes of `m` end in no valid padding: it is absent, zero, oversized or inconsistent. -/
def NoPadding (m : List Host.Cell) (n : Nat) : Prop :=
  let last := (Memory.read m (n - 1)).toNat
  n = 0 ∨ last = 0 ∨ 8 < last ∨ n < last ∨ ∃ a, n - last ≤ a ∧ a < n ∧ (Memory.read m a).toNat ≠ last

/-- R103: no number of padding bytes passes the check where there is no valid padding, since the last byte is that
number. -/
theorem unpadCheck_memRead_of_noPadding {m : List Host.Cell} {n : Nat} (h : NoPadding m n) :
    unpadCheck (memRead m 0 n) = .invalid := by
  cases hcheck : unpadCheck (memRead m 0 n) with
  | invalid => rfl
  | valid p =>
    obtain ⟨hpos, hle, hn, hbytes⟩ := (unpadCheck_memRead_eq_valid_iff m n p).mp hcheck
    have hbyte (a : Nat) (hlo : n - p ≤ a) (hhi : a < n) : (Memory.read m a).toNat = p := by
      rw [hbytes a hlo hhi, toNat_padByte hle]
    rw [NoPadding, hbyte (n - 1) (by omega) (by omega)] at h
    obtain h | h | h | h | ⟨a, hlo, hhi, hne⟩ := h
    · omega
    · omega
    · omega
    · omega
    · exact absurd (hbyte a hlo hhi) hne

/-- R105: UNPAD of a valid padding. -/
theorem exec_unpad_of_valid {s : State} {n p : Nat} (hn : s.len.toNat = n) (hcap : n ≤ s.cfg.cap)
    (hvalid : unpadCheck (memRead s.buf 0 n) = .valid p) : exec .unpad s = .next (done (setLen (n - p) s)) := by
  subst hn
  exact (Ends.unpad hcap hvalid).exec_eq

/-- LEN holds the length of a padded message that fits an admitted capacity. -/
theorem toNat_ofNat_of_le_cap {c : Config} (hc : c.WF) {n : Nat} (hn : n ≤ c.cap) : (BitVec.ofNat 32 n).toNat = n := by
  obtain ⟨-, -, hmax⟩ := hc
  exact Nat.mod_eq_of_lt (by omega)

/-- Settles O43: the OK outcome of PAD, with the bytes of the padded store. -/
theorem padAppendsToTheMessage : Obligations.PadAppendsToTheMessage := by
  intro s hinv n p hfit
  obtain ⟨hcfg, ⟨hwf, -⟩, -⟩ := hinv
  refine ⟨_, (Ends.pad hfit).exec_eq, rfl, toNat_ofNat_of_le_cap hcfg hfit, fun i hi => ?_, fun a ha => ?_⟩
  · exact read_paddedBuf_padding hwf (Nat.le_add_right n i) (Nat.add_lt_add_left hi n)
  · exact read_paddedBuf_outside hwf ha

/-- R7: under an admitted capacity the padded message fits exactly where the message is below the capacity. -/
theorem add_padLen_le_cap_iff {c : Config} (hc : c.WF) (n : Nat) : n + padLen n ≤ c.cap ↔ n ≤ c.cap - 1 := by
  refine ⟨fun h => ?_, add_padLen_le_cap hc⟩
  have hpad := one_le_padLen n
  omega

/-- R104, R111: PAD and ENCM end OK exactly where the padded message fits. -/
theorem Ends.status_eq_zero_iff {s t : State} {i : Instr} (h : Ends s i t) (hi : i = .pad ∨ i = .encm) :
    t.status = 0 ↔ s.len.toNat + padLen s.len.toNat ≤ s.cfg.cap := by
  cases h with
  | noRoom hroom =>
    have hfull : s.cfg.cap < s.len.toNat + padLen s.len.toNat := by obtain rfl | rfl := hi <;> exact hroom
    exact iff_of_false (by simp [Code.toWord]) hfull.not_ge
  | pad hfit | encm hfit => exact iff_of_true (done_status _) hfit
  | _ => simp at hi

/-- R112, R124: DECM ends without CAPACITY_ERROR exactly where the message fits. -/
theorem Ends.decm_status_ne_iff {s t : State} (h : Ends s .decm t) : t.status ≠ 3 ↔ s.len.toNat ≤ s.cfg.cap := by
  cases h with
  | noRoom hroom => exact iff_of_false (not_not.mpr rfl) (Nat.not_le.mpr hroom)
  | decm hcap | decmInvalid hcap | decmUnaligned hcap => exact iff_of_true (by simp [Code.toWord]) hcap

/-- Settles O45: PAD and ENCM take the message where its padding fits, DECM where the message does. -/
theorem longestMessageIsOneBelowCapacity : Obligations.LongestMessageIsOneBelowCapacity := by
  intro s hcfg
  obtain ⟨t, ht⟩ := exists_ends .pad s
  obtain ⟨u, hu⟩ := exists_ends .encm s
  obtain ⟨w, hw⟩ := exists_ends .decm s
  rw [← add_padLen_le_cap_iff hcfg]
  exact ⟨⟨t, ht.exec_eq, ht.status_eq_zero_iff (.inl rfl)⟩, ⟨u, hu.exec_eq, hu.status_eq_zero_iff (.inr rfl)⟩,
    ⟨w, hw.exec_eq, hw.decm_status_ne_iff⟩⟩

/-- Settles O46: the bytes make the padding valid. -/
theorem unpadRemovesThePadding : Obligations.UnpadRemovesThePadding := by
  intro s p n hcap hpos hle hn hbytes
  exact exec_unpad_of_valid rfl hcap ((unpadCheck_memRead_eq_valid_iff s.buf n p).mpr ⟨hpos, hle, hn, hbytes⟩)

/-- Settles O47: there is no valid padding, and UNPAD raises PADDING_ERROR. -/
theorem unpadReportsInvalidPadding : Obligations.UnpadReportsInvalidPadding :=
  fun _ hcap h => (Ends.unpadInvalid hcap (unpadCheck_memRead_of_noPadding h)).exec_eq

/-- Settles O48: UNPAD finds the padding PAD wrote, and takes its length off again. -/
theorem padThenUnpadRestoresTheMessage : Obligations.PadThenUnpadRestoresTheMessage := by
  intro s hinv hlt
  obtain ⟨hcfg, ⟨hwf, -⟩, -⟩ := hinv
  have hfit := add_padLen_le_cap hcfg (Nat.le_sub_one_of_lt hlt)
  have hvalid : unpadCheck (memRead (paddedBuf s.buf s.len.toNat) 0 (s.len.toNat + padLen s.len.toNat)) =
      .valid (padLen s.len.toNat) := by
    rw [memRead_paddedBuf hwf, unpadCheck_pad, length_memRead]
  refine ⟨_, _, (Ends.pad hfit).exec_eq, exec_unpad_of_valid (toNat_ofNat_of_le_cap hcfg hfit) hfit hvalid, ?_,
    done_status _, fun a ha => read_paddedBuf_of_lt hwf ha⟩
  rw [done_len, setLen_len, Nat.add_sub_cancel, BitVec.ofNat_toNat, BitVec.setWidth_eq]

end Sys2Proof.Machine
end

section
/-! The pipeline commands (R110 to R112): the blocks the loops leave, ENCM and DECM by them, and ENCM by hand. -/

namespace Sys2Proof.Machine

/-- R110: what EncryptBlocks leaves in each of its blocks. -/
theorem b2w_readChunk_encryptBlocks (k : Key) {m : List Host.Cell} (h : Memory.wf m) {n j : Nat} (hj : j < n / 8) :
    b2w (readChunk (encryptBlocks k n m) (8 * j)) = teaEncrypt k (b2w (readChunk m (8 * j))) := by
  have hloop := readChunk_transformBlocks (teaEncrypt k) (n / 8) 0 h (Nat.zero_le j) (by omega)
  exact (congrArg b2w hloop).trans (b2w_w2b _)

/-- R110: what DecryptBlocks leaves in each of its blocks. -/
theorem b2w_readChunk_decryptBlocks (k : Key) {m : List Host.Cell} (h : Memory.wf m) {n j : Nat} (hj : j < n / 8) :
    b2w (readChunk (decryptBlocks k n m) (8 * j)) = teaDecrypt k (b2w (readChunk m (8 * j))) := by
  have hloop := readChunk_transformBlocks (teaDecrypt k) (n / 8) 0 h (Nat.zero_le j) (by omega)
  exact (congrArg b2w hloop).trans (b2w_w2b _)

/-- Settles O49: each block by the loop, every other byte by its frame. -/
theorem blockLoopsTransformEachBlock : Obligations.BlockLoopsTransformEachBlock :=
  fun k _ _ h _ =>
    ⟨fun _ hj => ⟨b2w_readChunk_encryptBlocks k h hj, b2w_readChunk_decryptBlocks k h hj⟩,
      fun _ ha => ⟨read_encryptBlocks_of_le k h ha, read_decryptBlocks_of_le k h ha⟩⟩

/-- R101: the padded message, byte by byte. -/
theorem read_paddedBuf {m : List Host.Cell} (h : Memory.wf m) {n a : Nat} (ha : a < n + padLen n) :
    Memory.read (paddedBuf m n) a = if a < n then Memory.read m a else BitVec.ofNat 8 (padLen n) := by
  split
  · next hlt => exact read_paddedBuf_of_lt h hlt
  · next hge => exact read_paddedBuf_padding h (Nat.not_lt.mp hge) ha

/-- An 8-byte read of bytes that are given by a function of their offset. -/
theorem readChunk_eq_of_read_eq {m : List Host.Cell} {a : Nat} {f : Nat → Byte}
    (h : ∀ i < 8, Memory.read m (a + i) = f (a + i)) :
    readChunk m a =
      { b0 := f a, b1 := f (a + 1), b2 := f (a + 2), b3 := f (a + 3), b4 := f (a + 4), b5 := f (a + 5),
        b6 := f (a + 6), b7 := f (a + 7) } := by
  simp only [readChunk, Chunk.mk.injEq]
  exact ⟨h 0 (by omega), h 1 (by omega), h 2 (by omega), h 3 (by omega), h 4 (by omega), h 5 (by omega),
    h 6 (by omega), h 7 (by omega)⟩

/-- Settles O51: the OK outcome of ENCM, with the blocks of the padded message. -/
theorem encmEncryptsThePaddedMessage : Obligations.EncmEncryptsThePaddedMessage := by
  intro s hinv n p padded hfit
  obtain ⟨hcfg, ⟨hwf, -⟩, -⟩ := hinv
  have hpadded := wf_paddedBuf hwf n
  refine ⟨_, (Ends.encm hfit).exec_eq, rfl, toNat_ofNat_of_le_cap hcfg hfit, fun j hj => ?_, fun a ha => ?_⟩
  · have hbyte (i : Nat) (hi : i < 8) : Memory.read (paddedBuf s.buf n) (8 * j + i) = padded (8 * j + i) :=
      read_paddedBuf hwf (by omega)
    rw [done_buf, setLen_buf, setBuf_buf, b2w_readChunk_encryptBlocks s.k hpadded hj, readChunk_eq_of_read_eq hbyte]
  · exact (read_encryptBlocks_of_le s.k hpadded ha).trans (read_paddedBuf_outside hwf (.inr ha))

/-- Settles O53: the decrypted bytes make the padding valid. -/
theorem decmRecoversTheMessage : Obligations.DecmRecoversTheMessage := by
  intro s p n plain hcap halign hpos hle hn hbytes
  exact (Ends.decm hcap halign ((unpadCheck_memRead_eq_valid_iff plain n p).mpr ⟨hpos, hle, hn, hbytes⟩)).exec_eq

/-- Settles O54: there is no valid padding in the decrypted bytes, and DECM raises PADDING_ERROR over them. -/
theorem decmKeepsThePlaintextOnPaddingError : Obligations.DecmKeepsThePlaintextOnPaddingError :=
  fun _ hcap halign h => (Ends.decmInvalid hcap halign (unpadCheck_memRead_of_noPadding h)).exec_eq

/-- Settles O55: ALIGNMENT_ERROR is an outcome of DECM. -/
theorem decmChecksTheAlignment : Obligations.DecmChecksTheAlignment :=
  fun _ hcap hunaligned => (Ends.decmUnaligned hcap hunaligned).exec_eq

/-- R42: a sequence of commands goes on where its first command ends. -/
theorem runCommands_cons {s t : State} {i : Instr} (h : Ends s i t) (is : List Instr) :
    runCommands (i :: is) s = runCommands is t := by
  simp only [runCommands, h.exec_eq]

/-- R111: the commands of one block, `BTW 8j`, `ENCB`, `WTB 8j`. -/
def blockByHand (j : Nat) : List Instr := [.btw (8 * j), .encb, .wtb (8 * j)]

/-! Updates of the state that meet between two commands: the second `done` or `setBlock` overwrites the first. -/

theorem done_done (s : State) : done (done s) = done s := rfl

theorem done_setBuf_done (m : List Host.Cell) (s : State) : done (setBuf m (done s)) = done (setBuf m s) := rfl

theorem setBlock_done (w : Word × Word) (s : State) : setBlock w (done s) = done (setBlock w s) := rfl

theorem setBlock_setBlock (w w' : Word × Word) (s : State) : setBlock w (setBlock w' s) = setBlock w s := rfl

theorem setBlock_setBuf (w : Word × Word) (m : List Host.Cell) (s : State) :
    setBlock w (setBuf m s) = setBuf m (setBlock w s) := rfl

theorem setBuf_setBuf (m m' : List Host.Cell) (s : State) : setBuf m (setBuf m' s) = setBuf m s := rfl

/-- R111: the commands of one block transform it as one pass of the loop does, and leave its ciphertext in V. -/
theorem runCommands_blockByHand_append {s : State} {j : Nat} (hfit : 8 * j + 8 ≤ s.cfg.cap) (is : List Instr) :
    runCommands (blockByHand j ++ is) s =
      runCommands is (done (setBuf (transformBlock (teaEncrypt s.k) s.buf (8 * j))
        (setBlock (teaEncrypt s.k (b2w (readChunk s.buf (8 * j)))) s))) := by
  have hbtw := Ends.btw hfit
  have hencb := Ends.encb (s := done (setBlock (b2w (readChunk s.buf (8 * j))) s))
  have hwtb := Ends.wtb ((hencb.cfg_eq.trans hbtw.cfg_eq).symm ▸ hfit)
  simp only [blockByHand, List.cons_append, List.nil_append, runCommands_cons hbtw, runCommands_cons hencb,
    runCommands_cons hwtb]
  simp [setBlock_done, setBlock_setBlock, done_done, done_setBuf_done, transformBlock]

/-- R111: block after block, from block `j` on, is the loop, but for the last ciphertext block in V. -/
theorem runCommands_blocksByHand (count j : Nat) {s : State} (hfit : 8 * (j + count) ≤ s.cfg.cap) :
    ∃ w, runCommands ((List.range' j count).flatMap blockByHand) (done s) =
      .next (done (setBuf (transformBlocks (teaEncrypt s.k) count j s.buf) (setBlock w s))) := by
  induction count generalizing j s with
  | zero => exact ⟨(s.v0, s.v1), rfl⟩
  | succ count ih =>
    have hblock : 8 * j + 8 ≤ (done s).cfg.cap := by
      rw [done_cfg]
      omega
    obtain ⟨w, hw⟩ := ih (j + 1) (s := setBuf (transformBlock (teaEncrypt s.k) s.buf (8 * j))
      (setBlock (teaEncrypt s.k (b2w (readChunk s.buf (8 * j)))) s)) (by simp; omega)
    refine ⟨w, ?_⟩
    rw [List.range'_succ, List.flatMap_cons, runCommands_blockByHand_append hblock]
    simpa [setBlock_done, done_setBuf_done, setBlock_setBuf, setBlock_setBlock, setBuf_setBuf, transformBlocks_succ]
      using hw

/-- R111: the whole sequence by hand is PAD and then the blocks. -/
theorem encryptByHand_eq (n : Nat) :
    encryptByHand n = .pad :: (List.range' 0 ((n + padLen n) / 8)).flatMap blockByHand := by
  rw [encryptByHand, List.range_eq_range']
  rfl

/-- Settles O52: after PAD the blocks by hand are EncryptBlocks of the padded store, but for V. -/
theorem encmEqualsEncryptingByHand : Obligations.EncmEqualsEncryptingByHand := by
  intro s hcfg hlt
  have hfit := add_padLen_le_cap hcfg (Nat.le_sub_one_of_lt hlt)
  obtain ⟨w, hw⟩ := runCommands_blocksByHand ((s.len.toNat + padLen s.len.toNat) / 8) 0
    (s := setLen (s.len.toNat + padLen s.len.toNat) (setBuf (paddedBuf s.buf s.len.toNat) s)) (blocks_le hfit)
  rw [← runCommands_cons (Ends.pad hfit), ← encryptByHand_eq] at hw
  exact ⟨_, _, (Ends.encm hfit).exec_eq, hw, rfl⟩

end Sys2Proof.Machine
end

section
/-! The pseudo-operations (30_encoding.md R59). -/

namespace Sys2Proof.Machine

/-- R59: `ldbuf` writes byte `i` of its list at offset `a + i`, here with the count begun at any `j`. -/
theorem expandLdbuf_eq_map_zipIdx (a j : Nat) (bs : List Byte) :
    expandLdbuf (a + j) bs = (bs.zipIdx j).map fun p => .bufWrite (a + p.2) p.1 := by
  induction bs generalizing j with
  | nil => rfl
  | cons b bs ih => rw [expandLdbuf, Nat.add_assoc, ih, List.zipIdx_cons, List.map_cons]

/-- Settles O18: `ldkey` and `ldmsg` are their expansions, `ldbuf` is the numbered list, and the string is one list. -/
theorem pseudoOperationsExpand : Obligations.PseudoOperationsExpand :=
  ⟨fun _ _ _ _ => rfl, fun a bs => expandLdbuf_eq_map_zipIdx a 0 bs, fun _ => rfl, by decide⟩

end Sys2Proof.Machine
end
